-- ==== Sys2Proof/Config.lean ====
section
/-! DEFINITION. What one implementation of the core fixes: the datapath width W (R8). W is a named parameter of the
spec, so no definition of the model chooses it: State carries it as a field (log entry 1) and every statement holds for
every W. Only `State.reset` names a value, the reference configuration W = 64. The spec leaves no value undefined, so
there is no free value here. -/

namespace Sys2Proof

/-- The reference configuration of the spec, W = 64 (R8, D1). -/
def Config.referenceWidth : Nat := 64

/-- The widths an implementation may have: W ≥ 1 (R8); and W < 2^32, so that every width up to W fits the 32-bit width
registers (R10, D5: "32 bits holds them for any practical W"; the upper bound is DEDUCED, log entry 2). -/
abbrev Config.legalWidth (W : Nat) : Prop := 1 ≤ W ∧ W < 2 ^ 32

/-- P = max(W, 32), the width of the host port's data bus (R10). -/
def portWidth (W : Nat) : Nat := max W 32

end Sys2Proof
end

