-- ==== Sys2Proof/Word.lean ====
section
/-! DEFINITION. The bit-vector types whose width no configuration changes: the 32-bit registers (R10), the 4-bit register
index (R21), the 5-bit port header (R76) and the 4-bit cause field (R26). -/

namespace Sys2Proof

/-- A register of fixed width 32: N, CMD, STATUS, RES0_W, RES1_W (R10), and a command word (R70). -/
abbrev Word32 := BitVec 32

/-- A register index on the host port, IDX (R21, R76). -/
abbrev RegIndex := BitVec 4

/-- A port header: K in bit 4, IDX in bits 3:0 (R76). -/
abbrev PortHeader := BitVec 5

/-- The CAUSE field of STATUS (R26). -/
abbrev CauseCode := BitVec 4

end Sys2Proof
end

