-- ==== Sys2Proof/Syntax.lean ====
section
/-! DEFINITION. The instructions of the core: the six rows of spec/opcode_table.json, four commands and two port
requests (R71, R76). -/

namespace Sys2Proof

/-- The four operations of the OP field that are not reserved (R71). -/
inductive Op where
  | bitlen
  | divide
  | build
  | lfsr
deriving DecidableEq, Repr

/-- A legal command word, decoded: its operation and its T bit (R70, R72, R73). -/
structure Command where
  op    : Op
  trace : Bool
deriving DecidableEq, Repr

/-- The instructions. A command's only operand in its word is T; its values come from A, B and N (R75). A command stands
for the write of its word to CMD (R25). -/
inductive Instr where
  /-- BITLEN: the number of significant bits of A (R102). -/
  | bitlen (t : Bool)
  /-- DIVIDE: the quotient and remainder of A by B over GF(2) (R111). -/
  | divide (t : Bool)
  /-- BUILD: the codeword and FCS of message A of width N under polynomial B (R141). -/
  | build (t : Bool)
  /-- LFSR: the FCS of message A of width N by the shift register for polynomial B (R161). -/
  | lfsr (t : Bool)
  /-- RD: read the register at an index (R181). -/
  | rd (idx : RegIndex)
  /-- WR: write P data bits to the register at an index; index 3 issues a command (R182). The data is the number the P
  bits spell, since P depends on W; `Instr.wellFormed` bounds it. -/
  | wr (idx : RegIndex) (data : Nat)
deriving DecidableEq, Repr

/-- The instruction a legal command word stands for. -/
def Command.toInstr : Command → Instr
  | ⟨.bitlen, t⟩ => .bitlen t
  | ⟨.divide, t⟩ => .divide t
  | ⟨.build, t⟩ => .build t
  | ⟨.lfsr, t⟩ => .lfsr t

end Sys2Proof
end

