-- ==== Sys2Proof/WellFormed.lean ====
section
/-! DEFINITION. Which instructions a core of width W can be given. -/

namespace Sys2Proof

/-- An instruction is well formed for width W when its encoding can carry its operands: a WR's data fits the P bits of
the port's data field (R54, R76). Every index is encodable; whether the access is legal is checked when the request
executes (R77). -/
def Instr.wellFormed (W : Nat) : Instr → Bool
  | .bitlen _ => true
  | .divide _ => true
  | .build _ => true
  | .lfsr _ => true
  | .rd _ => true
  | .wr _ data => decide (data < 2 ^ portWidth W)

end Sys2Proof
end

