-- ==== Sys2Proof/Decode.lean ====
section
/-! DEFINITION. The two encodings of the core, the 32-bit command word (R70) and the port request (R76): the decoder,
total on both, and after it the encoder. -/

namespace Sys2Proof

/-- Why a word written to CMD is no command (R74). Both reasons are the core's one fault IllegalCommand. -/
inductive DecodeRefusal where
  /-- Some bit of the reserved field c[31:5] is set. -/
  | reservedBits
  /-- OP is 0x0 or 0x5 to 0xF. -/
  | reservedOpcode
deriving DecidableEq, Repr

/-- The two formats of spec/opcode_table.json: CMD32, and PORT5 with the data field of a port P bits wide. -/
inductive Encoding (P : Nat) where
  | command (word : Word32)
  | request (header : PortHeader) (data : BitVec P)
deriving DecidableEq, Repr

/-- The field OP, c[3:0] (R70). -/
def opField (c : Word32) : BitVec 4 := c.extractLsb' 0 4

/-- The field T, c[4] (R72). -/
def traceField (c : Word32) : Bool := c.getLsbD 4

/-- The reserved field, c[31:5] (R74). -/
def reservedField (c : Word32) : BitVec 27 := c.extractLsb' 5 27

/-- The operation an OP value names, none where it is reserved (R71). -/
def opOfField (f : BitVec 4) : Option Op :=
  match f.toNat with
  | 1 => some .bitlen
  | 2 => some .divide
  | 3 => some .build
  | 4 => some .lfsr
  | _ => none

/-- Decoding of a word written to CMD, total over all 2^32 words (R73). -/
def decodeCommand (c : Word32) : Except DecodeRefusal Command :=
  if reservedField c ≠ 0 then .error .reservedBits
  else
    match opOfField (opField c) with
    | some op => .ok ⟨op, traceField c⟩
    | none => .error .reservedOpcode

/-- The field K of a port header: false for RD, true for WR (R76). -/
def kindField (h : PortHeader) : Bool := h.getLsbD 4

/-- The field IDX of a port header (R76). -/
def indexField (h : PortHeader) : RegIndex := h.extractLsb' 0 4

/-- Decoding of a port request, total over all 32 headers (R77). A RD has no data field, so its data is not looked at. -/
def decodeRequest {P : Nat} (h : PortHeader) (data : BitVec P) : Instr :=
  if kindField h then .wr (indexField h) data.toNat else .rd (indexField h)

/-- Decoding of either format. -/
def decode {P : Nat} : Encoding P → Except DecodeRefusal Instr
  | .command c => (decodeCommand c).map Command.toInstr
  | .request h data => .ok (decodeRequest h data)

/-- The OP value of an operation (R71). -/
def opCode : Op → BitVec 4
  | .bitlen => 1
  | .divide => 2
  | .build => 3
  | .lfsr => 4

/-- The command word of a command: OP in bits 3:0, T in bit 4, bits 31:5 zero (R70). -/
def encodeCommand (k : Command) : Word32 :=
  (0 : BitVec 27) ++ BitVec.ofBool k.trace ++ opCode k.op

/-- A port header from K and IDX (R76). -/
def encodeHeader (write : Bool) (idx : RegIndex) : PortHeader :=
  BitVec.ofBool write ++ idx

/-- The encoding of an instruction on a port P bits wide. The data field that a RD does not have is given as zeros. -/
def encode (P : Nat) : Instr → Encoding P
  | .bitlen t => .command (encodeCommand ⟨.bitlen, t⟩)
  | .divide t => .command (encodeCommand ⟨.divide, t⟩)
  | .build t => .command (encodeCommand ⟨.build, t⟩)
  | .lfsr t => .command (encodeCommand ⟨.lfsr, t⟩)
  | .rd idx => .request (encodeHeader false idx) 0
  | .wr idx data => .request (encodeHeader true idx) (BitVec.ofNat P data)

/-- The index of CMD (R21). -/
def cmdIndex : RegIndex := 3

/-- The port request that carries an encoding to the core: a command word travels as the data of a WR to CMD (R25, R79). -/
def Encoding.toRequest {P : Nat} : Encoding P → PortHeader × BitVec P
  | .command c => (encodeHeader true cmdIndex, BitVec.ofNat P c.toNat)
  | .request h data => (h, data)

/-- The encoding that nbits bits of spec/opcode_table.json give: up to 8 bits a port header, whose data field is zeros
(bits above the 5-bit header must be 0: DESIGN CHOICE, log entry 6), otherwise a 32-bit command word. -/
def tableEncoding (P nbits w : Nat) : Option (Encoding P) :=
  if nbits ≤ 8 then
    if w < 32 then some (.request (BitVec.ofNat 5 w) 0) else none
  else
    if w < 2 ^ 32 then some (.command (BitVec.ofNat 32 w)) else none

/-- The instruction the decoder reads from an instruction's bits as the opcode table numbers them, none where it
refuses. -/
def decodeTableWord (nbits w : Nat) : Option Instr :=
  match tableEncoding (portWidth Config.referenceWidth) nbits w with
  | some e => (decode e).toOption
  | none => none

end Sys2Proof
end

