-- ==== Sys2Proof/Machine/State.lean ====
section
/-! DEFINITION. The state of the machine as plain data: the architectural state of the core (R20) as `CrcCore W`, and
around it the width W, the values the port has returned and the host's pending events. -/

namespace Sys2Proof.Machine

/-- The core's own faults (R201). Raising one is a next state of the machine (R209), never a stop of the model. -/
inductive FaultCause where
  /-- DIVIDE, BUILD or LFSR with B = 0 (R208). -/
  | divisorZero
  /-- BUILD or LFSR with bitlen(A) > N (R204). -/
  | widthTruncation
  /-- BUILD or LFSR with N > W (R205). -/
  | widthRange
  /-- BUILD with N + m > W (R211). -/
  | overflow
  /-- A CMD write of a word that is no command (R206). -/
  | illegalCommand
  /-- A port request the register map does not allow (R207). -/
  | badAccess
deriving DecidableEq, Repr

/-- STATUS (R26), as its three fields. Bits 3:2 and 31:8 are hardwired to 0 and have no storage; `Status.word` is the
32-bit value a read returns. -/
structure Status where
  done  : Bool
  fault : Bool
  cause : CauseCode
deriving DecidableEq, Repr

/-- The phase of an LFSR cycle (R168). -/
inductive Phase where
  | msg
  | flush
deriving DecidableEq, Repr

/-- A record of the trace stream (R190) of a core of width W. -/
inductive TraceRecord (W : Nat) where
  /-- One iteration of a division (R118). -/
  | divStep (j aux : Nat) (qbit : Bool) (sub after next : BitVec W)
  /-- One cycle of the LFSR (R168); `reg` is the register of m bits. -/
  | lfsrCycle (c : Nat) (phase : Phase) (bit msbOld : Bool) (m : Nat) (reg : BitVec m)
deriving DecidableEq, Repr

/-- The architectural state of a core of width W: the register file and the trace stream, exactly the parts of R20.
CMD stores nothing (R25). -/
structure CrcCore (W : Nat) where
  a      : BitVec W
  b      : BitVec W
  n      : Word32
  status : Status
  res0   : BitVec W
  res1   : BitVec W
  res0W  : Word32
  res1W  : Word32
  trace  : List (TraceRecord W)
deriving DecidableEq, Repr

/-- What the host can do to the core between two steps: assert reset (R230), or issue a port request of a header and P
data bits (R76). -/
inductive HostEvent (P : Nat) where
  | reset
  | request (header : PortHeader) (data : BitVec P)
deriving DecidableEq, Repr

/-- The state of the machine: the width (R8, log entry 1), the core, the values every RD has returned so far, oldest
first (R187, log entry 4), and the host's pending events, next one first (R56, log entry 3). -/
structure State where
  W        : Nat
  crc      : CrcCore W
  returned : List (BitVec (portWidth W))
  inbox    : List (HostEvent (portWidth W))
deriving DecidableEq, Repr

/-- The reasons the model itself could stop with a fault: there are none. Every command and every port request of the
spec has an effect, and the core's own faults are next states (R209), so this type is empty. Safe: no run of the model
ends early (log entry 9). -/
inductive Fault where
deriving DecidableEq, Repr

/-- The reasons the model could refuse an instruction. -/
inductive Refusal where
  /-- Raised only by an arm of exec whose instruction has no meaning yet; no arm raises it. Safe: a refused instruction
  has no next state about which anything could be proved. -/
  | notModelled (mnemonic : String)
deriving DecidableEq, Repr

/-- The reset value of the core (R38). -/
def CrcCore.reset (W : Nat) : CrcCore W where
  a      := 0
  b      := 0
  n      := 0
  status := ⟨false, false, 0⟩
  res0   := 0
  res1   := 0
  res0W  := 0
  res1W  := 0
  trace  := []

/-- The machine right after reset at width W: the core at its reset value, nothing returned yet and nothing pending. -/
def State.resetAt (W : Nat) : State where
  W        := W
  crc      := CrcCore.reset W
  returned := []
  inbox    := []

/-- The machine right after reset (R38) in the reference configuration W = 64 (R8). -/
def State.reset : State := State.resetAt Config.referenceWidth

end Sys2Proof.Machine
end

