-- ==== Sys2Proof/Machine/Operands.lean ====
section
/-! DEFINITION. Bit lengths and carry-less products (R15, R100), the operands of a command (R75), and the width
conversions of the port (R54). Values are numbers and shifts have unbounded precision, as in R14; the place where a
number enters a register names the width. -/

namespace Sys2Proof.Machine

/-- `bitlen(x)`: 0 for 0, else the position of the highest set bit plus 1 (R100). -/
def bitlen (x : Nat) : Nat := if x = 0 then 0 else Nat.log2 x + 1

/-- The degree m = bitlen(G) - 1 of a nonzero polynomial (R9). -/
def degree (G : Nat) : Nat := bitlen G - 1

/-- Bit i of a value, as the number 0 or 1 (R14). -/
def bitNat (v i : Nat) : Nat := (v.testBit i).toNat

/-- The XOR-sum of `a << i` over the bits i < k that are set in b. -/
def clmulBelow (a b : Nat) : Nat → Nat
  | 0 => 0
  | i + 1 => clmulBelow a b i ^^^ (if b.testBit i then a <<< i else 0)

/-- Carry-less multiplication (R15): the XOR-sum of `a << i` over every i with b[i] = 1. -/
def clmul (a b : Nat) : Nat := clmulBelow a b (bitlen b)

/-- q and r are a quotient and a remainder of a by g over GF(2) (R15). -/
abbrev IsDivMod (a g q r : Nat) : Prop := a = clmul q g ^^^ r ∧ bitlen r < bitlen g

/-- The operand a command takes from A: value, dividend or message (R75). -/
abbrev CrcCore.opA {W : Nat} (c : CrcCore W) : Nat := c.a.toNat

/-- The operand a command takes from B: divisor or polynomial (R75). -/
abbrev CrcCore.opB {W : Nat} (c : CrcCore W) : Nat := c.b.toNat

/-- The operand a command takes from N: the message width (R75). -/
abbrev CrcCore.opN {W : Nat} (c : CrcCore W) : Nat := c.n.toNat

/-- `trunc_w`: what a register w bits wide keeps of a number (R14, R54). -/
abbrev truncTo (w : Nat) (v : Nat) : BitVec w := BitVec.ofNat w v

/-- `zext_P`: what a read of a register returns on the port of a core of width W (R54). -/
def toPort {w : Nat} (W : Nat) (v : BitVec w) : BitVec (portWidth W) := v.setWidth (portWidth W)

end Sys2Proof.Machine
end

