-- ==== Sys2Proof/Machine/Flags.lean ====
section
/-! DEFINITION. STATUS and its flags: the word a read returns, the code of each fault cause, and the two ways STATUS
changes, completion (R27) and fault entry (R209). -/

namespace Sys2Proof.Machine

/-- The code of a fault in STATUS.CAUSE (R201). -/
def FaultCause.code : FaultCause → CauseCode
  | .divisorZero => 1
  | .widthTruncation => 2
  | .widthRange => 3
  | .overflow => 4
  | .illegalCommand => 5
  | .badAccess => 6

/-- The 32-bit value of STATUS: DONE in bit 0, FAULT in bit 1, CAUSE in bits 7:4, every other bit hardwired 0 (R26). -/
def Status.word (st : Status) : Word32 :=
  (0 : BitVec 24) ++ st.cause ++ (0 : BitVec 2) ++ BitVec.ofBool st.fault ++ BitVec.ofBool st.done

/-- STATUS after a command has completed: DONE is 1 (R27). -/
def Status.complete (st : Status) : Status := { st with done := true }

/-- STATUS after fault entry with a cause: the first cause is kept (R209). -/
def Status.raise (f : FaultCause) (st : Status) : Status where
  done  := false
  fault := true
  cause := if st.fault then st.cause else f.code

end Sys2Proof.Machine
end

