-- ==== Sys2Proof/Machine/Ops.lean ====
section
/-! DEFINITION. The operations that the meanings share: the register map and its access rights (R21), reading and writing
registers (R54), fault entry (R209), completing a command (R29), issuing one behind the FAULT gate (R28, R183), and
reset (R230). There is no memory (R50), so no operation over memory; and no return from a fault (R210), so none is
defined: reset alone clears FAULT. -/

namespace Sys2Proof.Machine

/-- The registers of the register map (R21). -/
inductive Reg where
  | A
  | B
  | N
  | CMD
  | STATUS
  | RES0
  | RES1
  | RES0_W
  | RES1_W
deriving DecidableEq, Repr

/-- The access rights of a register (R21). -/
inductive Access where
  | readWrite
  | readOnly
  | writeOnly
deriving DecidableEq, Repr

/-- The register at an index; none at the reserved indices 9 to 15 (R21). -/
def regAt (idx : RegIndex) : Option Reg :=
  match idx.toNat with
  | 0 => some .A
  | 1 => some .B
  | 2 => some .N
  | 3 => some .CMD
  | 4 => some .STATUS
  | 5 => some .RES0
  | 6 => some .RES1
  | 7 => some .RES0_W
  | 8 => some .RES1_W
  | _ => none

/-- The access column of the register map (R21). -/
def Reg.access : Reg → Access
  | .A | .B | .N => .readWrite
  | .CMD => .writeOnly
  | .STATUS | .RES0 | .RES1 | .RES0_W | .RES1_W => .readOnly

/-- A RD of this index is legal (R207). -/
def readable (idx : RegIndex) : Bool :=
  match regAt idx with
  | some r => r.access != .writeOnly
  | none => false

/-- A WR of this index is legal (R207). -/
def writable (idx : RegIndex) : Bool :=
  match regAt idx with
  | some r => r.access != .readOnly
  | none => false

/-- The value of a register on the port (R54, R181). CMD holds none (R25); a RD of it returns 0 (R207). -/
def CrcCore.readReg {W : Nat} (c : CrcCore W) : Reg → BitVec (portWidth W)
  | .A => toPort W c.a
  | .B => toPort W c.b
  | .N => toPort W c.n
  | .CMD => 0
  | .STATUS => toPort W c.status.word
  | .RES0 => toPort W c.res0
  | .RES1 => toPort W c.res1
  | .RES0_W => toPort W c.res0W
  | .RES1_W => toPort W c.res1W

/-- Write A from port data: the low W bits are kept (R54, R182). -/
def CrcCore.writeA {W : Nat} (data : Nat) (c : CrcCore W) : CrcCore W := { c with a := truncTo W data }

/-- Write B from port data (R54, R182). -/
def CrcCore.writeB {W : Nat} (data : Nat) (c : CrcCore W) : CrcCore W := { c with b := truncTo W data }

/-- Write N from port data: the low 32 bits are kept, whatever their value (R23, R54, R182). -/
def CrcCore.writeN {W : Nat} (data : Nat) (c : CrcCore W) : CrcCore W := { c with n := truncTo 32 data }

/-- Fault entry (R209): STATUS alone changes. -/
def CrcCore.faultEntry {W : Nat} (f : FaultCause) (c : CrcCore W) : CrcCore W :=
  { c with status := c.status.raise f }

/-- What a command that completes produces: the values and widths of the two results (R29) and its trace records. -/
structure Results (W : Nat) where
  res0  : Nat
  res0W : Nat
  res1  : Nat
  res1W : Nat
  recs  : List (TraceRecord W)
deriving DecidableEq, Repr

/-- A command completes: it writes the four result registers (R29), sets DONE (R27) and appends its records at the end of
the trace stream (R190), all at once (R184). -/
def CrcCore.complete {W : Nat} (r : Results W) (c : CrcCore W) : CrcCore W :=
  { c with
    res0   := truncTo W r.res0
    res0W  := truncTo 32 r.res0W
    res1   := truncTo W r.res1
    res1W  := truncTo 32 r.res1W
    status := c.status.complete
    trace  := c.trace ++ r.recs }

/-- `emit(rec)`, gated by the command's trace bit (R72, R190). -/
def emit {W : Nat} (trace : Bool) (recs : List (TraceRecord W)) (record : TraceRecord W) : List (TraceRecord W) :=
  if trace then recs ++ [record] else recs

/-- The FAULT gate of `issue` (R28, R183): while FAULT is 1 a CMD write changes nothing. -/
def CrcCore.gated {W : Nat} (f : CrcCore W → CrcCore W) (c : CrcCore W) : CrcCore W :=
  if c.status.fault then c else f c

/-- A command past the gate: its checks come before its first write and its first record (R203, R212), so it either enters
one fault or completes. -/
def CrcCore.perform {W : Nat} (check : CrcCore W → Option FaultCause) (results : CrcCore W → Results W)
    (c : CrcCore W) : CrcCore W :=
  match check c with
  | some f => c.faultEntry f
  | none => c.complete (results c)

/-- The state with its core changed, and everything else kept. -/
abbrev State.mapCore (s : State) (f : CrcCore s.W → CrcCore s.W) : State := { s with crc := f s.crc }

/-- The state after the port has returned a value to a RD (R187). -/
abbrev State.returning (s : State) (v : BitVec (portWidth s.W)) : State := { s with returned := s.returned ++ [v] }

/-- BadAccess (R207): fault entry, and the access is not performed. -/
abbrev State.badAccess (s : State) : State := { s with crc := s.crc.faultEntry .badAccess }

/-- The state whose pending events are the given ones. -/
abbrev State.withInbox (s : State) (evs : List (HostEvent (portWidth s.W))) : State := { s with inbox := evs }

/-- Reset (R230): every part of the state of R20 takes its reset value, whatever it was. The width is the machine's and
the list of returned values is the host's record; both stay (log entry 5). -/
abbrev State.takeReset (s : State) : State := { s with crc := CrcCore.reset s.W }

/-- The event that carries an encoding to the core. -/
def eventOf {P : Nat} (e : Encoding P) : HostEvent P := .request e.toRequest.1 e.toRequest.2

end Sys2Proof.Machine
end

