-- ==== Sys2Proof/Machine/BitWidth.lean ====
section
/-! DEFINITION. BITLEN (41_bitwidth.md). -/

namespace Sys2Proof.Machine

/-- What BITLEN produces: RES0 = bitlen(A) with width bitlen(W), RES1 = 0 with width 0 (R102), and no record whatever
its T bit (R103). -/
def bitlenResults {W : Nat} (c : CrcCore W) : Results W where
  res0  := bitlen c.opA
  res0W := bitlen W
  res1  := 0
  res1W := 0
  recs  := []

/-- BITLEN never faults once decoded (R102, R202). -/
def bitlenCheck {W : Nat} (_ : CrcCore W) : Option FaultCause := none

/-- BITLEN (R102). The T bit has no effect (R103). -/
def execBitlen (_t : Bool) (s : State) : Host.Outcome State Fault Refusal :=
  .next (s.mapCore (CrcCore.gated (CrcCore.perform bitlenCheck bitlenResults)))

end Sys2Proof.Machine
end

