-- ==== Sys2Proof/Machine/Divider.lean ====
section
/-! DEFINITION. The GF(2) divider (R110) and DIVIDE (42_divider.md). -/

namespace Sys2Proof.Machine

/-- The divider's values while it runs (R35), with the records emitted so far. -/
structure DivState (W : Nat) where
  rem  : Nat
  qacc : Nat
  recs : List (TraceRecord W)
deriving DecidableEq, Repr

/-- What `divide` returns (R110), with the records emitted. -/
structure DivResult (W : Nat) where
  q    : Nat
  qw   : Nat
  rem  : Nat
  rw   : Nat
  recs : List (TraceRecord W)
deriving DecidableEq, Repr

/-- The quotient bit of an iteration: equality of bit lengths, never a magnitude comparison (R114). -/
def quotientBit (G rem : Nat) : Bool := bitlen rem == bitlen G

/-- The value an iteration subtracts: G or 0 (R114). -/
def subtrahend (G : Nat) (qbit : Bool) : Nat := if qbit then G else 0

/-- Bring down the next dividend bit after the iteration with index aux; after the last one nothing (R115). -/
def bringDown (D aux after : Nat) : Nat :=
  if aux > 0 then (after <<< 1) ||| bitNat D (aux - 1) else after

/-- One iteration of the divider's loop, with index aux, where `top` is k - r, the first index (R110, R114, R115, R117,
R118). -/
def divIteration {W : Nat} (D G top : Nat) (trace : Bool) (aux : Nat) (v : DivState W) : DivState W :=
  let qbit := quotientBit G v.rem
  let sub := subtrahend G qbit
  let after := v.rem ^^^ sub
  let next := bringDown D aux after
  { rem  := next
    qacc := (v.qacc <<< 1) ||| qbit.toNat
    recs := emit trace v.recs
      (.divStep (top - aux) aux qbit (truncTo W sub) (truncTo W after) (truncTo W next)) }

/-- The loop from index aux down to 0 inclusive (R110, R115). -/
def divLoop {W : Nat} (D G top : Nat) (trace : Bool) : Nat → DivState W → DivState W
  | 0, v => divIteration D G top trace 0 v
  | aux + 1, v => divLoop D G top trace aux (divIteration D G top trace (aux + 1) v)

/-- `divide(D, G, trace)` (R110), entered only with G ≠ 0 (R123). -/
def divide (W : Nat) (D G : Nat) (trace : Bool) : DivResult W :=
  let k := bitlen D
  let r := bitlen G
  if k < r then { q := 0, qw := 0, rem := D, rw := r - 1, recs := [] }
  else
    let v := divLoop D G (k - r) trace (k - r) { rem := D >>> (k - r), qacc := 0, recs := [] }
    { q := v.qacc, qw := k - r + 1, rem := v.rem, rw := r - 1, recs := v.recs }

/-- The check of DIVIDE (R123, R208). -/
def divideCheck {W : Nat} (c : CrcCore W) : Option FaultCause :=
  if c.opB = 0 then some .divisorZero else none

/-- What DIVIDE produces: the quotient and the remainder of A by B, with their widths (R111). N is not read (R124). -/
def divideResults (trace : Bool) {W : Nat} (c : CrcCore W) : Results W :=
  let d := divide W c.opA c.opB trace
  { res0 := d.q, res0W := d.qw, res1 := d.rem, res1W := d.rw, recs := d.recs }

/-- DIVIDE (R111). -/
def execDivide (t : Bool) (s : State) : Host.Outcome State Fault Refusal :=
  .next (s.mapCore (CrcCore.gated (CrcCore.perform divideCheck (divideResults t))))

end Sys2Proof.Machine
end

