-- ==== Sys2Proof/Machine/Codeword.lean ====
section
/-! DEFINITION. The codeword builder: BUILD (43_codeword.md). -/

namespace Sys2Proof.Machine

/-- The checks of BUILD, in the order of R141 and R212. -/
def buildCheck {W : Nat} (c : CrcCore W) : Option FaultCause :=
  if c.opB = 0 then some .divisorZero
  else if c.opN > W then some .widthRange
  else if bitlen c.opA > c.opN then some .widthTruncation
  else if c.opN + degree c.opB > W then some .overflow
  else none

/-- The message shifted left by the degree of the polynomial (R142). -/
def shiftedMessage (M G : Nat) : Nat := M <<< degree G

/-- What BUILD produces: the codeword of width N + m and the FCS of width m, with the records of the inner division
(R141, R143, R147). The inner quotient is discarded. -/
def buildResults (trace : Bool) {W : Nat} (c : CrcCore W) : Results W :=
  let m := degree c.opB
  let shifted := shiftedMessage c.opA c.opB
  let d := divide W shifted c.opB trace
  { res0 := shifted ^^^ d.rem, res0W := c.opN + m, res1 := d.rem, res1W := m, recs := d.recs }

/-- BUILD (R141). -/
def execBuild (t : Bool) (s : State) : Host.Outcome State Fault Refusal :=
  .next (s.mapCore (CrcCore.gated (CrcCore.perform buildCheck (buildResults t))))

end Sys2Proof.Machine
end

