-- ==== Sys2Proof/Machine/Lfsr.lean ====
section
/-! DEFINITION. The LFSR CRC engine: LFSR (44_lfsr.md). -/

namespace Sys2Proof.Machine

/-- The engine's register while it runs (R36), with the records emitted so far. -/
structure LfsrState (W : Nat) where
  reg  : Nat
  recs : List (TraceRecord W)
deriving DecidableEq, Repr

/-- The feedback tap mask: the low m bits of the polynomial (R160). -/
def tapMask (G : Nat) : Nat := G % 2 ^ degree G

/-- The input bit of cycle c: the message from bit n - 1 down to bit 0, then zeros (R162, R166). -/
def lfsrInput (M n c : Nat) : Bool := if c < n then M.testBit (n - 1 - c) else false

/-- The feedback decision: the top bit of the register before the shift; 0 when the register has no bits (R163, R170). -/
def feedbackBit (m reg : Nat) : Bool := if m > 0 then reg.testBit (m - 1) else false

/-- The shift by one place with the input bit at bit 0, modulo 2^m (R164). -/
def shiftIn (m reg : Nat) (i : Bool) : Nat := ((reg <<< 1) ||| i.toNat) % 2 ^ m

/-- The phase of cycle c (R168). -/
def phaseOf (n c : Nat) : Phase := if c < n then .msg else .flush

/-- One clock cycle (R161 to R165, R168). -/
def lfsrCycle {W : Nat} (M n G : Nat) (trace : Bool) (c : Nat) (v : LfsrState W) : LfsrState W :=
  let m := degree G
  let i := lfsrInput M n c
  let msbOld := feedbackBit m v.reg
  let shifted := shiftIn m v.reg i
  let reg := if msbOld then shifted ^^^ tapMask G else shifted
  { reg  := reg
    recs := emit trace v.recs (.lfsrCycle c (phaseOf n c) i msbOld m (truncTo m reg)) }

/-- `count` cycles from cycle number c on. -/
def lfsrLoop {W : Nat} (M n G : Nat) (trace : Bool) : (count c : Nat) → LfsrState W → LfsrState W
  | 0, _, v => v
  | count + 1, c, v => lfsrLoop M n G trace count (c + 1) (lfsrCycle M n G trace c v)

/-- The engine run: n message cycles and then m flush cycles, from register 0 (R160, R161, R166). -/
def lfsrRun (W : Nat) (M n G : Nat) (trace : Bool) : LfsrState W :=
  lfsrLoop M n G trace (n + degree G) 0 { reg := 0, recs := [] }

/-- The checks of LFSR, in the order of R161 and R212; there is no Overflow check. -/
def lfsrCheck {W : Nat} (c : CrcCore W) : Option FaultCause :=
  if c.opB = 0 then some .divisorZero
  else if c.opN > W then some .widthRange
  else if bitlen c.opA > c.opN then some .widthTruncation
  else none

/-- What LFSR produces: RES0 = 0 with width 0, the final register as RES1 with width m, and the cycle records (R161). -/
def lfsrResults (trace : Bool) {W : Nat} (c : CrcCore W) : Results W :=
  let v := lfsrRun W c.opA c.opN c.opB trace
  { res0 := 0, res0W := 0, res1 := v.reg, res1W := degree c.opB, recs := v.recs }

/-- LFSR (R161). -/
def execLfsr (t : Bool) (s : State) : Host.Outcome State Fault Refusal :=
  .next (s.mapCore (CrcCore.gated (CrcCore.perform lfsrCheck (lfsrResults t))))

end Sys2Proof.Machine
end

