-- ==== Sys2Proof/Machine/Port.lean ====
section
/-! DEFINITION. The host register port: RD, WR and the issue of a command (45_interfaces.md). -/

namespace Sys2Proof.Machine

/-- RD (R181): a readable register returns its value zero-extended to P bits and changes nothing else (R57); CMD and the
reserved indices return 0 and raise BadAccess (R207). -/
def execRd (idx : RegIndex) (s : State) : Host.Outcome State Fault Refusal :=
  match regAt idx with
  | some .CMD => .next (s.badAccess.returning 0)
  | some r => .next (s.returning (s.crc.readReg r))
  | none => .next (s.badAccess.returning 0)

/-- `issue(c)` (R183): the FAULT gate, decoding, then the command, or IllegalCommand for a word that is none (R206). Each
command stands behind the same gate. -/
def execIssue (c : Word32) (s : State) : Host.Outcome State Fault Refusal :=
  match decodeCommand c with
  | .ok ⟨.bitlen, t⟩ => execBitlen t s
  | .ok ⟨.divide, t⟩ => execDivide t s
  | .ok ⟨.build, t⟩ => execBuild t s
  | .ok ⟨.lfsr, t⟩ => execLfsr t s
  | .error _ => .next (s.mapCore (CrcCore.gated (CrcCore.faultEntry .illegalCommand)))

/-- WR (R182): A, B and N take the data that fits them; CMD issues the command in data bits 31:0; the read-only registers
and the reserved indices raise BadAccess and are not written (R207). -/
def execWr (idx : RegIndex) (data : Nat) (s : State) : Host.Outcome State Fault Refusal :=
  match regAt idx with
  | some .A => .next (s.mapCore (CrcCore.writeA data))
  | some .B => .next (s.mapCore (CrcCore.writeB data))
  | some .N => .next (s.mapCore (CrcCore.writeN data))
  | some .CMD => execIssue (truncTo 32 data) s
  | some .STATUS | some .RES0 | some .RES1 | some .RES0_W | some .RES1_W => .next s.badAccess
  | none => .next s.badAccess

end Sys2Proof.Machine
end

