-- ==== Sys2Proof/Machine/Dispatch.lean ====
section
/-! DEFINITION. One arm per instruction. -/

namespace Sys2Proof.Machine

def exec (i : Instr) (s : State) : Host.Outcome State Fault Refusal :=
  match i with
  | .bitlen t => Sys2Proof.Machine.execBitlen t s
  | .divide t => Sys2Proof.Machine.execDivide t s
  | .build t => Sys2Proof.Machine.execBuild t s
  | .lfsr t => Sys2Proof.Machine.execLfsr t s
  | .rd idx => Sys2Proof.Machine.execRd idx s
  | .wr idx data => Sys2Proof.Machine.execWr idx data s

end Sys2Proof.Machine
end

