-- ==== Sys2Proof/Machine/Step.lean ====
section
/-! DEFINITION. One step of the machine: it takes the host's next event. -/

namespace Sys2Proof.Machine

/-- One step. With nothing pending the core is idle and keeps all its state (R222). A reset takes effect between two
requests (R232). A port request is decoded and executed to its end, a CMD write with its whole command (R56, R184). -/
def step (s : State) : Host.Outcome State Fault Refusal :=
  match s.inbox with
  | [] => .next s
  | .reset :: rest => .next (s.withInbox rest).takeReset
  | .request h data :: rest => exec (decodeRequest h data) (s.withInbox rest)

/-- s with the port request that carries the given instruction word placed first among the pending events, where step
takes its next one (log entry 6). -/
def State.withFetchWord (s : State) (nbits w : Nat) : State :=
  match tableEncoding (portWidth s.W) nbits w with
  | some e => s.withInbox (eventOf e :: s.inbox)
  | none => s

end Sys2Proof.Machine
end

