-- ==== Sys2Proof/Safety.lean ====
section
/-! DEFINITION. The terms claims are stated in: the invariant of the machine, runs and faulted runs (R187), what a run
shows of the registers, and what changes when every T bit is flipped (R193). -/

namespace Sys2Proof.Machine

/-- The legal values of STATUS (R26). -/
abbrev Status.legal (st : Status) : Prop :=
  (st.fault = false → st.cause = 0) ∧
    (st.fault = true → 1 ≤ st.cause.toNat ∧ st.cause.toNat ≤ 6 ∧ st.done = false)

/-- Every result width covers its result (R30). -/
abbrev CrcCore.widthsCover {W : Nat} (c : CrcCore W) : Prop :=
  bitlen c.res0.toNat ≤ c.res0W.toNat ∧ bitlen c.res1.toNat ≤ c.res1W.toNat

/-- The ranges and relations that R118 and R168 give the fields of a record. -/
def TraceRecord.legal {W : Nat} : TraceRecord W → Bool
  | .divStep j aux qbit sub after next =>
    decide (j + aux < W) && (qbit || sub == 0) && (aux != 0 || next == after)
  | .lfsrCycle c phase bit _ m _ =>
    decide (c + 2 ≤ 2 * W) && decide (m < W) && (phase != .flush || !bit)

/-- The invariant of the machine: a legal width (R8), a legal STATUS (R26), result widths that cover their results (R30),
and legal trace records (R118, R168). -/
structure State.Inv (s : State) : Prop where
  width  : Config.legalWidth s.W
  status : s.crc.status.legal
  covers : s.crc.widthsCover
  trace  : ∀ r ∈ s.crc.trace, r.legal = true

/-- The values of the eight registers that hold one (R20, R21), as numbers, in index order: what the end of a run shows of
the register file and STATUS (R187). -/
def State.registers (s : State) : List Nat :=
  [s.crc.a.toNat, s.crc.b.toNat, s.crc.n.toNat, s.crc.status.word.toNat, s.crc.res0.toNat, s.crc.res1.toNat,
    s.crc.res0W.toNat, s.crc.res1W.toNat]

/-- The operands on which BUILD passes its checks (R141). -/
abbrev CrcCore.buildReady {W : Nat} (c : CrcCore W) : Prop :=
  c.b ≠ 0 ∧ c.n.toNat ≤ W ∧ bitlen c.a.toNat ≤ c.n.toNat ∧ c.n.toNat + degree c.b.toNat ≤ W

/-- The operands on which LFSR passes its checks (R161). -/
abbrev CrcCore.lfsrReady {W : Nat} (c : CrcCore W) : Prop :=
  c.b ≠ 0 ∧ c.n.toNat ≤ W ∧ bitlen c.a.toNat ≤ c.n.toNat

/-- The instruction answers the next state in which a command has completed (R27, R29, R190): the result registers hold
exactly the given numbers (nothing is lost to a register's width), each width register holds the given width whenever 32
bits hold it (R10; a W of 2^32 or more is log entry 2), DONE is 1, the given records stand at the end of the trace stream,
and everything else (A, B, N, FAULT, CAUSE, the earlier records, the width, the values returned and the pending events) is
as before. -/
def CompletesWith (i : Instr) (s : State) (res0 res0W res1 res1W : Nat) (recs : List (TraceRecord s.W)) : Prop :=
  ∃ c : CrcCore s.W,
    exec i s = .next { s with crc := c } ∧
      c.res0.toNat = res0 ∧ (res0W < 2 ^ 32 → c.res0W.toNat = res0W) ∧
      c.res1.toNat = res1 ∧ (res1W < 2 ^ 32 → c.res1W.toNat = res1W) ∧
      c = { s.crc with
        res0 := c.res0, res0W := c.res0W, res1 := c.res1, res1W := c.res1W,
        status := { s.crc.status with done := true },
        trace := s.crc.trace ++ recs }

/-- The instruction answers the next state in which a first fault has been entered (R209, R214): FAULT is 1, CAUSE is the
cause's code, DONE is 0, and everything else is as before. -/
def FaultsWith (i : Instr) (s : State) (f : FaultCause) : Prop :=
  exec i s = .next { s with crc := { s.crc with status := ⟨false, true, f.code⟩ } }

/-- The position of a record within its command: the loop index of a division step, the number of an LFSR cycle. -/
def TraceRecord.position {W : Nat} : TraceRecord W → Nat
  | .divStep _ aux _ _ _ _ => aux
  | .lfsrCycle c _ _ _ _ _ => c

/-- A run of k events (R187). -/
def runFor (k : Nat) (s : State) : Host.Outcome State Fault Refusal := Host.Core.run Sys2Proof.core k s

/-- The machine is in the faulted state (R200, R209). -/
def State.faulted (s : State) : Bool := s.crc.status.fault

/-- A safe run: k events after which no fault has been raised (R187: not a faulted run). -/
def SafeRun (k : Nat) (s : State) : Prop := ∃ u, runFor k s = .next u ∧ u.faulted = false

/-- The first of the pending events is a port request, not a reset. -/
def State.requestPending (s : State) : Prop :=
  ∃ h data rest, s.inbox = .request h data :: rest

/-- A CMD write with its T bit flipped; every other event as it is. -/
def HostEvent.flipTrace {P : Nat} : HostEvent P → HostEvent P
  | .reset => .reset
  | .request h data =>
    if h = encodeHeader true cmdIndex then .request h (data ^^^ BitVec.ofNat P 16) else .request h data

/-- The state with all trace records deleted and the T bit of every pending CMD write flipped (R193). -/
def State.flipTrace (s : State) : State :=
  { s with crc := { s.crc with trace := [] }, inbox := s.inbox.map HostEvent.flipTrace }

end Sys2Proof.Machine
end

