-- ==== Sys2Proof/Certificates/Slice0/Obligations.lean ====
section
/-! DEFINITION. The statements for the provers. Each docstring names the rules of spec/ a statement formalises. A
statement speaks of every width W: W is a field of State (log entry 1). -/

open Sys2Proof Sys2Proof.Machine

/-! ## Encoding and decoding -/

/-- R71 with the words of R73, written out: two words of every command (T = 0 and T = 1), and two headers each of RD and
WR (R76), decode to the instruction they stand for. A check on fixed words. -/
def Obligations.WordsDecodeToTheirInstructions : Prop :=
  decode (P := 64) (.command 0x00000001) = .ok (.bitlen false) ∧
  decode (P := 64) (.command 0x00000011) = .ok (.bitlen true) ∧
  decode (P := 64) (.command 0x00000002) = .ok (.divide false) ∧
  decode (P := 64) (.command 0x00000012) = .ok (.divide true) ∧
  decode (P := 64) (.command 0x00000003) = .ok (.build false) ∧
  decode (P := 64) (.command 0x00000013) = .ok (.build true) ∧
  decode (P := 64) (.command 0x00000004) = .ok (.lfsr false) ∧
  decode (P := 64) (.command 0x00000014) = .ok (.lfsr true) ∧
  decode (P := 64) (.request 0b00110#5 0) = .ok (.rd 6) ∧
  decode (P := 64) (.request 0b01001#5 0) = .ok (.rd 9) ∧
  decode (P := 64) (.request 0b10001#5 0x5B) = .ok (.wr 1 0x5B) ∧
  decode (P := 64) (.request 0b10011#5 0x12) = .ok (.wr 3 0x12)

/-- R73: the words that decode are exactly the eight legal ones, each to its command; and a word that is none of them,
written to CMD, raises IllegalCommand whatever A, B and N hold. -/
def Obligations.ExactlyEightWordsAreCommands : Prop :=
  (∀ (c : Word32) (k : Command), decodeCommand c = .ok k ↔
    (c, k) ∈ [((0x00000001 : Word32), (⟨.bitlen, false⟩ : Command)), (0x00000011, ⟨.bitlen, true⟩),
      (0x00000002, ⟨.divide, false⟩), (0x00000012, ⟨.divide, true⟩),
      (0x00000003, ⟨.build, false⟩), (0x00000013, ⟨.build, true⟩),
      (0x00000004, ⟨.lfsr, false⟩), (0x00000014, ⟨.lfsr, true⟩)]) ∧
  ∀ (c : Word32) (s : State), (∀ k, decodeCommand c ≠ .ok k) → s.faulted = false →
    FaultsWith (.wr 3 c.toNat) s .illegalCommand

/-- Decode and encode agree: what a well-formed instruction of a core of width W is encoded as decodes to it, with every
operand at every value the encoding admits (R70, R76). -/
def Obligations.DecodeOfEncodeIsTheInstruction : Prop :=
  ∀ (W : Nat) (i : Instr), i.wellFormed W = true → decode (encode (portWidth W) i) = .ok i

/-- The other direction: a word or request is the encoding of what it decodes to, but for the data field that a RD does
not have (R70, R76). So no two command words decode alike. -/
def Obligations.EncodeOfDecodeIsTheWord : Prop :=
  ∀ P : Nat,
    (∀ (c : Word32) (i : Instr), decode (P := P) (.command c) = .ok i → encode P i = .command c) ∧
    (∀ (h : PortHeader) (data : BitVec P), kindField h = true →
      encode P (decodeRequest h data) = .request h data) ∧
    (∀ (h : PortHeader) (data : BitVec P), kindField h = false →
      encode P (decodeRequest h data) = .request h 0)

/-- R76 and R77: header 0IIII is RD of IIII, header 1IIII is WR of IIII, and there is no other header. -/
def Obligations.EveryHeaderIsRdOrWr : Prop :=
  ∀ (P : Nat) (h : PortHeader) (data : BitVec P), ∃ idx : RegIndex,
    (h.toNat = idx.toNat ∧ decode (.request h data) = .ok (.rd idx)) ∨
    (h.toNat = 16 + idx.toNat ∧ decode (.request h data) = .ok (.wr idx data.toNat))

/-! ## The step -/

/-- A step with a port request pending is exec of the instruction the request decodes to, at the state without that
request (R56, R77). -/
def Obligations.StepRunsTheDecodedRequest : Prop :=
  ∀ (s : State) (h : PortHeader) (data : BitVec (portWidth s.W)) (rest : List (HostEvent (portWidth s.W))) (i : Instr),
    s.inbox = .request h data :: rest → decode (.request h data) = .ok i →
      step s = exec i { s with inbox := rest }

/-- R25, R183: a step that takes a CMD write whose data bits 31:0 decode to a command is exec of that command; the data
bits above 31 do not matter. -/
def Obligations.StepRunsTheCommandWrittenToCmd : Prop :=
  ∀ (s : State) (data : BitVec (portWidth s.W)) (rest : List (HostEvent (portWidth s.W))) (c : Word32) (i : Instr),
    s.inbox = .request 0b10011#5 data :: rest → c.toNat = data.toNat % 2 ^ 32 →
      decode (P := portWidth s.W) (.command c) = .ok i →
      step s = exec i { s with inbox := rest }

/-- The next step of a state with an instruction word of the opcode table placed first runs the instruction that the
decoder reads from it. The numbering of a header's bits in a byte is the model's choice, log entry 6. -/
def Obligations.PlacedTableWordIsTheNextInstruction : Prop :=
  ∀ (s : State) (nbits w : Nat) (i : Instr), decodeTableWord nbits w = some i →
    step (s.withFetchWord nbits w) = exec i s

/-- Every event has a next state: no step of any state stops, and none changes the width (R77, R200, R209, R222; the width
as a field of State is the model's choice, log entry 1, and so is the step that idles with nothing pending, log entry
3). -/
def Obligations.EveryStepHasANextState : Prop :=
  ∀ s : State, ∃ u, step s = .next u ∧ u.W = s.W

/-- R230: a reset puts every part of the state of R20 to its reset value; and no other event clears FAULT or changes a
CAUSE that is set. -/
def Obligations.OnlyResetClearsTheFault : Prop :=
  (∀ (s : State) (rest : List (HostEvent (portWidth s.W))), s.inbox = .reset :: rest →
    ∃ u, step s = .next u ∧ u.registers = [0, 0, 0, 0, 0, 0, 0, 0] ∧ u.crc.trace = []) ∧
  (∀ s u : State, s.faulted = true → (∀ rest, s.inbox ≠ .reset :: rest) → step s = .next u →
    u.faulted = true ∧ u.crc.status.cause = s.crc.status.cause)

/-! ## Reset and the invariant -/

/-- R38, at every width: every register that holds a value is 0, DONE, FAULT and CAUSE are 0, and the trace stream is
empty. -/
def Obligations.ResetLeavesEverythingZero : Prop :=
  (∀ W : Nat, (State.resetAt W).registers = [0, 0, 0, 0, 0, 0, 0, 0] ∧
    (State.resetAt W).crc.status = ⟨false, false, 0⟩ ∧ (State.resetAt W).crc.trace = []) ∧
  State.reset.registers = [0, 0, 0, 0, 0, 0, 0, 0] ∧ State.reset.crc.trace = []

/-- The invariant holds right after reset, at every legal width. -/
def Obligations.InvariantHoldsAtReset : Prop :=
  State.reset.Inv ∧ ∀ W : Nat, Config.legalWidth W → (State.resetAt W).Inv

/-- Every step keeps the invariant: the width is legal (R8), STATUS holds a legal value (R26), each result width covers its
result (R30), and every trace record is within the ranges of R118 and R168. The bound W < 2^32 of a legal width is
log entry 2. -/
def Obligations.EveryStepKeepsTheInvariant : Prop :=
  ∀ s u : State, s.Inv → step s = .next u → u.Inv

/-! ## Bit lengths and BITLEN -/

/-- R100: bitlen is 0 for 0, else the position of the highest set bit plus 1. -/
def Obligations.BitlenIsTheHighestSetBitPlusOne : Prop :=
  bitlen 0 = 0 ∧
  ∀ x : Nat, x ≠ 0 → ∃ i : Nat, bitlen x = i + 1 ∧ x.testBit i = true ∧ ∀ j : Nat, j > i → x.testBit j = false

/-- The consequences of R100 that R101 lists. -/
def Obligations.BitlenBounds : Prop :=
  (∀ W x : Nat, x < 2 ^ W → bitlen x ≤ W) ∧
  (∀ x : Nat, x < 2 ^ bitlen x) ∧
  (∀ x : Nat, x > 0 → 2 ^ (bitlen x - 1) ≤ x) ∧
  (∀ x y : Nat, bitlen (x ^^^ y) ≤ max (bitlen x) (bitlen y)) ∧
  (∀ x y r : Nat, bitlen x = r → bitlen y = r → r > 0 → bitlen (x ^^^ y) ≤ r - 1) ∧
  (∀ x b : Nat, x > 0 → b < 2 → bitlen ((x <<< 1) ||| b) = bitlen x + 1)

/-- R102 and R103: BITLEN completes on every operand with RES0 = bitlen(A) and RES0_W = bitlen(W), RES1 and RES1_W zero,
and no record, whatever its T bit. Its words are 0x00000001 and 0x00000011. (`CompletesWith` says that a width
register holds the width whenever 32 bits hold it, R10; so in every statement below.) -/
def Obligations.BitlenCompletes : Prop :=
  decodeCommand 0x00000001 = .ok ⟨.bitlen, false⟩ ∧ decodeCommand 0x00000011 = .ok ⟨.bitlen, true⟩ ∧
  ∀ (t : Bool) (s : State), s.faulted = false →
    CompletesWith (.bitlen t) s (bitlen s.crc.a.toNat) (bitlen s.W) 0 0 []

/-! ## The divider and DIVIDE -/

/-- R111: DIVIDE completes with the quotient and the remainder that `divide` returns for A and B and their widths, and
appends the records of that division; with B = 0 it raises DivisorZero and writes and emits nothing. Its words are
0x00000002 and 0x00000012. -/
def Obligations.DivideCompletes : Prop :=
  decodeCommand 0x00000002 = .ok ⟨.divide, false⟩ ∧ decodeCommand 0x00000012 = .ok ⟨.divide, true⟩ ∧
  (∀ (t : Bool) (s : State), s.faulted = false → s.crc.b ≠ 0 →
    CompletesWith (.divide t) s
      (divide s.W s.crc.a.toNat s.crc.b.toNat t).q (divide s.W s.crc.a.toNat s.crc.b.toNat t).qw
      (divide s.W s.crc.a.toNat s.crc.b.toNat t).rem (divide s.W s.crc.a.toNat s.crc.b.toNat t).rw
      (divide s.W s.crc.a.toNat s.crc.b.toNat t).recs) ∧
  (∀ (t : Bool) (s : State), s.faulted = false → s.crc.b = 0 → FaultsWith (.divide t) s .divisorZero)

/-- R110: `divide` is the loop of its pseudocode. A dividend shorter than the divisor is cut short. Otherwise there are the
values REM j and QACC j before iteration j = 0, ..., k - r, from the seed on; iteration j has aux = k - r - j, tests the
bit lengths, subtracts, assembles the quotient, brings a bit down and, with trace = 1, emits record j; and the values after
the last iteration are returned. -/
def Obligations.DividerRunsTheLoop : Prop :=
  (∀ (W D G : Nat) (t : Bool), bitlen D < bitlen G →
    divide W D G t = { q := 0, qw := 0, rem := D, rw := bitlen G - 1, recs := [] }) ∧
  ∀ W D G : Nat, G ≠ 0 → bitlen D ≥ bitlen G →
    ∃ REM QACC : Nat → Nat,
      REM 0 = D >>> (bitlen D - bitlen G) ∧ QACC 0 = 0 ∧
      (∀ j aux : Nat, j + aux = bitlen D - bitlen G →
        ∃ (qbit : Bool) (sub after : Nat),
          qbit = decide (bitlen (REM j) = bitlen G) ∧ sub = (if qbit then G else 0) ∧ after = REM j ^^^ sub ∧
          QACC (j + 1) = (QACC j <<< 1) ||| qbit.toNat ∧
          REM (j + 1) = (if aux > 0 then (after <<< 1) ||| (D.testBit (aux - 1)).toNat else after) ∧
          (divide W D G true).recs[j]? =
            some (.divStep j aux qbit (BitVec.ofNat W sub) (BitVec.ofNat W after) (BitVec.ofNat W (REM (j + 1))))) ∧
      (divide W D G true).recs.length = bitlen D - bitlen G + 1 ∧
      ∀ t : Bool,
        (divide W D G t).q = QACC (bitlen D - bitlen G + 1) ∧ (divide W D G t).qw = bitlen D - bitlen G + 1 ∧
        (divide W D G t).rem = REM (bitlen D - bitlen G + 1) ∧ (divide W D G t).rw = bitlen G - 1 ∧
        (t = false → (divide W D G t).recs = [])

/-- R120, the division identity: the carry-less product of the quotient and G, plus the remainder, is D, and the remainder
is shorter than G. -/
def Obligations.DivisionIdentity : Prop :=
  ∀ (W D G : Nat) (t : Bool), G ≠ 0 →
    clmul (divide W D G t).q G ^^^ (divide W D G t).rem = D ∧ bitlen (divide W D G t).rem < bitlen G

/-- The quotient and the remainder of a division over GF(2) are unique (R15; the spec takes this from general knowledge,
entry G1 of 93_implementation_defined.md). With R120 it makes `divide` the pdiv and pmod of R121. -/
def Obligations.QuotientAndRemainderAreUnique : Prop :=
  ∀ a g q r q' r' : Nat, g ≠ 0 → IsDivMod a g q r → IsDivMod a g q' r' → q = q' ∧ r = r'

/-- R112: a dividend shorter than the divisor gives quotient 0 of width 0, the dividend itself as remainder with width
r - 1, which covers it, and no record. -/
def Obligations.ShortDividendIsTheRemainder : Prop :=
  ∀ (W D G : Nat) (t : Bool), bitlen D < bitlen G →
    (divide W D G t).q = 0 ∧ (divide W D G t).qw = 0 ∧ (divide W D G t).rem = D ∧
      (divide W D G t).rw = bitlen G - 1 ∧ (divide W D G t).rw ≥ bitlen D ∧ (divide W D G t).recs = []

/-- The widths that R122 derives: the quotient has exactly qw significant bits, qw = k - r + 1 unless the division is cut
short, and rw = r - 1 covers the remainder. -/
def Obligations.DivisionWidthsAreExact : Prop :=
  ∀ (W D G : Nat) (t : Bool), G ≠ 0 →
    (divide W D G t).qw = (if bitlen D ≥ bitlen G then bitlen D - bitlen G + 1 else 0) ∧
    bitlen (divide W D G t).q = (divide W D G t).qw ∧
    (divide W D G t).rw = bitlen G - 1 ∧ bitlen (divide W D G t).rem ≤ (divide W D G t).rw

/-- Corner cases that R124 derives: division by 1, of a value by itself, and of operands of equal bit length, where one
subtraction is made whichever number is larger. -/
def Obligations.DivisionCornerCases : Prop :=
  ∀ (W : Nat) (t : Bool),
    (∀ D : Nat, (divide W D 1 t).q = D ∧ (divide W D 1 t).qw = bitlen D ∧ (divide W D 1 t).rem = 0 ∧
      (divide W D 1 t).rw = 0) ∧
    (∀ G : Nat, G ≠ 0 → (divide W G G t).q = 1 ∧ (divide W G G t).qw = 1 ∧ (divide W G G t).rem = 0) ∧
    (∀ D G : Nat, G ≠ 0 → bitlen D = bitlen G → (divide W D G t).q = 1 ∧ (divide W D G t).rem = D ^^^ G)

/-- R119: a traced division emits one record per iteration, k - r + 1 of them, with aux running from k - r down to 0; one
that is cut short emits none; an untraced one emits none; and tracing changes no returned value. -/
def Obligations.DivisionTraceCountAndOrder : Prop :=
  ∀ W D G : Nat,
    (bitlen D ≥ bitlen G →
      (divide W D G true).recs.map TraceRecord.position = (List.range (bitlen D - bitlen G + 1)).reverse) ∧
    (bitlen D < bitlen G → (divide W D G true).recs = []) ∧
    (divide W D G false).recs = [] ∧
    (divide W D G true).q = (divide W D G false).q ∧ (divide W D G true).qw = (divide W D G false).qw ∧
    (divide W D G true).rem = (divide W D G false).rem ∧ (divide W D G true).rw = (divide W D G false).rw

/-- The content of the records (R114, R115, R117, R118): record j has aux = k - r - j; its qbit is bit aux of the quotient;
sub is G or 0 by it; after is the remainder of the dividend bits consumed so far, whose quotient is the quotient bits
formed so far; next appends the next dividend bit, or equals after at the end; after has fewer than r and next at most r
significant bits (R116), so the W-bit fields hold them whole. -/
def Obligations.DivisionTraceContent : Prop :=
  ∀ W D G j aux : Nat, D < 2 ^ W → G ≠ 0 → bitlen D ≥ bitlen G → j + aux = bitlen D - bitlen G →
    ∃ (qbit : Bool) (sub after next : BitVec W),
      (divide W D G true).recs[j]? = some (.divStep j aux qbit sub after next) ∧
      qbit = (divide W D G true).q.testBit aux ∧
      sub.toNat = (if qbit then G else 0) ∧
      IsDivMod (D >>> aux) G ((divide W D G true).q >>> aux) after.toNat ∧
      next.toNat = (if aux > 0 then 2 * after.toNat + (D.testBit (aux - 1)).toNat else after.toNat) ∧
      bitlen next.toNat ≤ bitlen G

/-! ## The codeword builder: BUILD -/

/-- R141: on operands that pass its checks BUILD completes with the codeword `(A << m) ⊕ rem` of width N + m and the FCS
rem of width m, where rem is the remainder of `A << m` by B, and appends the records of that division; on others it
enters the fault of the first check that fails. Its words are 0x00000003 and 0x00000013. -/
def Obligations.BuildCompletes : Prop :=
  decodeCommand 0x00000003 = .ok ⟨.build, false⟩ ∧ decodeCommand 0x00000013 = .ok ⟨.build, true⟩ ∧
  (∀ (t : Bool) (s : State), s.faulted = false → s.crc.buildReady →
    CompletesWith (.build t) s
      ((s.crc.a.toNat <<< degree s.crc.b.toNat) ^^^
        (divide s.W (s.crc.a.toNat <<< degree s.crc.b.toNat) s.crc.b.toNat t).rem)
      (s.crc.n.toNat + degree s.crc.b.toNat)
      (divide s.W (s.crc.a.toNat <<< degree s.crc.b.toNat) s.crc.b.toNat t).rem
      (degree s.crc.b.toNat)
      (divide s.W (s.crc.a.toNat <<< degree s.crc.b.toNat) s.crc.b.toNat t).recs) ∧
  (∀ (t : Bool) (s : State), s.faulted = false → ¬ s.crc.buildReady →
    FaultsWith (.build t) s
      (if s.crc.b = 0 then .divisorZero
       else if s.crc.n.toNat > s.W then .widthRange
       else if bitlen s.crc.a.toNat > s.crc.n.toNat then .widthTruncation
       else .overflow))

/-- R142 and R143: the codeword is the message above the FCS. -/
def Obligations.CodewordIsMessageThenFcs : Prop :=
  ∀ (t : Bool) (s : State), s.faulted = false → s.crc.buildReady →
    ∃ c : CrcCore s.W, exec (.build t) s = .next { s with crc := c } ∧
      c.res0.toNat >>> degree s.crc.b.toNat = s.crc.a.toNat ∧
      c.res0.toNat % 2 ^ degree s.crc.b.toNat = c.res1.toNat ∧
      bitlen c.res0.toNat ≤ s.crc.n.toNat + degree s.crc.b.toNat ∧
      bitlen c.res1.toNat ≤ degree s.crc.b.toNat

/-- R146: after a completed BUILD, a DIVIDE of the codeword by the same polynomial leaves remainder 0. -/
def Obligations.CodewordDividesEvenly : Prop :=
  ∀ (t t' : Bool) (s : State), s.faulted = false → s.crc.buildReady →
    ∃ c d : CrcCore s.W, exec (.build t) s = .next { s with crc := c } ∧
      exec (.divide t') { s with crc := { c with a := c.res0 } } = .next { s with crc := d } ∧
      d.status.done = true ∧ d.res1 = 0

/-- R148: when the polynomial has at least two bits set, flipping any single bit of the codeword leaves a nonzero
remainder. The condition on the polynomial is the spec's general knowledge, entry G2 of 93_implementation_defined.md. -/
def Obligations.SingleBitFlipIsDetected : Prop :=
  ∀ (t t' : Bool) (s : State) (i x y : Nat), s.faulted = false → s.crc.buildReady →
    x ≠ y → s.crc.b.toNat.testBit x = true → s.crc.b.toNat.testBit y = true →
    i < s.crc.n.toNat + degree s.crc.b.toNat →
    ∃ c d : CrcCore s.W, exec (.build t) s = .next { s with crc := c } ∧
      exec (.divide t') { s with crc := { c with a := c.res0 ^^^ BitVec.ofNat s.W (2 ^ i) } } =
        .next { s with crc := d } ∧
      d.status.done = true ∧ d.res1 ≠ 0

/-! ## The LFSR engine: LFSR -/

/-- R161: on operands that pass its checks LFSR completes with RES0 = 0 of width 0 and the final register of the run as
RES1 with width m, and appends the records of the run; on others it enters the fault of the first check that fails. Its
words are 0x00000004 and 0x00000014. -/
def Obligations.LfsrCompletes : Prop :=
  decodeCommand 0x00000004 = .ok ⟨.lfsr, false⟩ ∧ decodeCommand 0x00000014 = .ok ⟨.lfsr, true⟩ ∧
  (∀ (t : Bool) (s : State), s.faulted = false → s.crc.lfsrReady →
    CompletesWith (.lfsr t) s 0 0
      (lfsrRun s.W s.crc.a.toNat s.crc.n.toNat s.crc.b.toNat t).reg (degree s.crc.b.toNat)
      (lfsrRun s.W s.crc.a.toNat s.crc.n.toNat s.crc.b.toNat t).recs) ∧
  (∀ (t : Bool) (s : State), s.faulted = false → ¬ s.crc.lfsrReady →
    FaultsWith (.lfsr t) s
      (if s.crc.b = 0 then .divisorZero
       else if s.crc.n.toNat > s.W then .widthRange
       else .widthTruncation))

/-- R160 and R162 to R166, the clock cycles: there are register values REG c before cycle c = 0, ..., n + m - 1, from 0
on. Cycle c takes message bit n - 1 - c, or 0 in the m flush cycles; captures the top bit of the register; shifts it by
one with the input bit at bit 0, modulo 2^m; XORs the low m bits of the polynomial in if the captured bit was 1; and, with
trace = 1, emits record c. The value after the last cycle is the result. -/
def Obligations.LfsrRunsTheCycles : Prop :=
  ∀ W M n G : Nat, G ≠ 0 →
    ∃ REG : Nat → Nat,
      REG 0 = 0 ∧
      (∀ c : Nat, c < n + degree G →
        ∃ i msbOld : Bool,
          i = (if c < n then M.testBit (n - 1 - c) else false) ∧
          msbOld = (if degree G > 0 then (REG c).testBit (degree G - 1) else false) ∧
          REG (c + 1) =
            (((REG c <<< 1) ||| i.toNat) % 2 ^ degree G) ^^^ (if msbOld then G % 2 ^ degree G else 0) ∧
          (lfsrRun W M n G true).recs[c]? =
            some (.lfsrCycle c (if c < n then .msg else .flush) i msbOld (degree G)
              (BitVec.ofNat (degree G) (REG (c + 1))))) ∧
      (∀ c : Nat, c ≤ n + degree G → REG c < 2 ^ degree G) ∧
      (lfsrRun W M n G true).recs.length = n + degree G ∧
      ∀ t : Bool, (lfsrRun W M n G t).reg = REG (n + degree G) ∧ (t = false → (lfsrRun W M n G t).recs = [])

/-- The final register of the run is the remainder of the message, shifted left by m, by the polynomial (the last step of
the proof sketch of R167). -/
def Obligations.LfsrRunIsTheRemainder : Prop :=
  ∀ (W M n G : Nat) (t : Bool), G ≠ 0 → bitlen M ≤ n →
    ∃ q : Nat, IsDivMod (M <<< degree G) G q (lfsrRun W M n G t).reg

/-- R167: wherever both complete, LFSR and BUILD leave the same RES1 and both RES1_W are m (the widths that 32 bits hold, R10);
and one of them completes where the other faults only where BUILD raises Overflow. -/
def Obligations.LfsrFcsEqualsBuildFcs : Prop :=
  (∀ (t t' : Bool) (s : State), s.faulted = false → s.crc.buildReady →
    ∃ c d : CrcCore s.W, exec (.build t) s = .next { s with crc := c } ∧ exec (.lfsr t') s = .next { s with crc := d } ∧
      c.status.done = true ∧ d.status.done = true ∧ d.res1 = c.res1 ∧ d.res1W = c.res1W ∧
      (degree s.crc.b.toNat < 2 ^ 32 → c.res1W.toNat = degree s.crc.b.toNat)) ∧
  (∀ (t t' : Bool) (s u v : State), s.faulted = false → exec (.build t) s = .next u → exec (.lfsr t') s = .next v →
    u.faulted ≠ v.faulted → u.faulted = true ∧ u.crc.status.cause = FaultCause.overflow.code)

/-- R169: a traced run emits n + m records in cycle order, first the n MSG records and then the m FLUSH records; an untraced
one emits none; and tracing does not change the final register. -/
def Obligations.LfsrTraceCountAndOrder : Prop :=
  ∀ W M n G : Nat,
    (lfsrRun W M n G true).recs.map TraceRecord.position = List.range (n + degree G) ∧
    (∀ c : Nat, c < n + degree G → ∃ (bit msbOld : Bool) (reg : BitVec (degree G)),
      (lfsrRun W M n G true).recs[c]? =
        some (.lfsrCycle c (if c < n then .msg else .flush) bit msbOld (degree G) reg)) ∧
    (lfsrRun W M n G false).recs = [] ∧
    (lfsrRun W M n G true).reg = (lfsrRun W M n G false).reg

/-- The content of the records (R162 to R166, R168, and the invariant of the proof sketch of R167): cycle c consumes bit
n + m - 1 - c of the message shifted left by m; after it the register is the remainder of the bits consumed so far; and
its feedback bit is the quotient bit this cycle forms, or 0 when the register has no bits (R170). -/
def Obligations.LfsrTraceContent : Prop :=
  ∀ W M n G c : Nat, G ≠ 0 → bitlen M ≤ n → c < n + degree G →
    ∃ (q : Nat) (reg : BitVec (degree G)),
      (lfsrRun W M n G true).recs[c]? =
        some (.lfsrCycle c (if c < n then .msg else .flush) ((M <<< degree G).testBit (n + degree G - 1 - c))
          (decide (0 < degree G) && q.testBit 0) (degree G) reg) ∧
      IsDivMod ((M <<< degree G) >>> (n + degree G - 1 - c)) G q reg.toNat

/-- R170: with the polynomial 1 the register has no bits and no taps: n message cycles, no feedback, no flush cycle, and
RES1 = 0 of width 0, as BUILD leaves for the same polynomial. -/
def Obligations.DegreeZeroLfsrLeavesAnEmptyFcs : Prop :=
  degree 1 = 0 ∧ tapMask 1 = 0 ∧
  ∀ (t t' : Bool) (s : State), s.faulted = false → s.crc.b.toNat = 1 → s.crc.lfsrReady →
    ∃ (c d : CrcCore s.W) (recs : List (TraceRecord s.W)),
      exec (.lfsr t) s = .next { s with crc := c } ∧ c.status.done = true ∧ c.res1 = 0 ∧ c.res1W = 0 ∧
      c.trace = s.crc.trace ++ recs ∧ (t = true → recs.length = s.crc.n.toNat) ∧
      (∀ r ∈ recs, ∃ (k : Nat) (bit : Bool), r = .lfsrCycle k .msg bit false 0 0) ∧
      exec (.build t') s = .next { s with crc := d } ∧ d.status.done = true ∧ d.res1 = 0 ∧ d.res1W = 0

/-- Leading zeros of the message do not change the FCS (R149, R171): two declared widths that both hold the message give
the same final register. -/
def Obligations.LeadingZerosKeepTheFcs : Prop :=
  ∀ (W M n n' G : Nat) (t t' : Bool), G ≠ 0 → bitlen M ≤ n → bitlen M ≤ n' →
    (lfsrRun W M n G t).reg = (lfsrRun W M n' G t').reg

/-! ## STATUS and faults -/

/-- R26: DONE is bit 0, FAULT bit 1, CAUSE bits 7:4, every other bit reads 0; and every step keeps the legal values. -/
def Obligations.StatusLayoutAndLegalValues : Prop :=
  (∀ st : Status, st.word.getLsbD 0 = st.done ∧ st.word.getLsbD 1 = st.fault ∧
    (∀ i : Nat, i < 4 → st.word.getLsbD (4 + i) = st.cause.getLsbD i) ∧
    st.word.getLsbD 2 = false ∧ st.word.getLsbD 3 = false ∧ (∀ i : Nat, i ≥ 8 → st.word.getLsbD i = false)) ∧
  State.reset.crc.status.word = 0 ∧ State.reset.crc.status.legal ∧
  (∀ s u : State, s.crc.status.legal → step s = .next u → u.crc.status.legal)

/-- R27: after a request, DONE tells whether it was an executed CMD write that completed; a fault of either kind leaves it
0; anything else leaves it as it was. -/
def Obligations.DoneIsWrittenByExecutedCommandsOnly : Prop :=
  ∀ (s u : State) (h : PortHeader) (data : BitVec (portWidth s.W)) (rest : List (HostEvent (portWidth s.W))),
    s.crc.status.legal → s.inbox = .request h data :: rest → step s = .next u →
    u.crc.status.done =
      (if h = 0b10011#5 ∧ s.faulted = false then ! u.faulted
       else if u.faulted then false else s.crc.status.done)

/-- R209 with the codes of R201: fault entry writes the code only if FAULT was 0, sets FAULT, clears DONE and changes
nothing else. -/
def Obligations.FaultEntryKeepsTheFirstCause : Prop :=
  (∀ (W : Nat) (c : CrcCore W) (f : FaultCause),
    (c.status.fault = false → c.faultEntry f = { c with status := ⟨false, true, f.code⟩ }) ∧
    (c.status.fault = true → c.faultEntry f = { c with status := ⟨false, true, c.status.cause⟩ })) ∧
  FaultCause.divisorZero.code = 1 ∧ FaultCause.widthTruncation.code = 2 ∧ FaultCause.widthRange.code = 3 ∧
  FaultCause.overflow.code = 4 ∧ FaultCause.illegalCommand.code = 5 ∧ FaultCause.badAccess.code = 6

/-- R28: while FAULT is 1 a command, and every CMD write, legal or not, changes no state and emits no record. -/
def Obligations.FaultedCoreIgnoresCommands : Prop :=
  ∀ s : State, s.faulted = true →
    (∀ k : Command, exec k.toInstr s = .next s) ∧ (∀ data : Nat, exec (.wr 3 data) s = .next s)

/-- R212: a CMD write is ignored while FAULT is 1; otherwise it reports the first of IllegalCommand, DivisorZero (DIVIDE,
BUILD, LFSR), WidthRange and WidthTruncation (BUILD, LFSR), Overflow (BUILD), and only STATUS changes; RD and WR of other
indices have the single cause BadAccess. -/
def Obligations.FirstFaultInPriorityOrder : Prop :=
  ∀ (s : State) (data : Nat),
    (s.faulted = true → exec (.wr 3 data) s = .next s) ∧
    (s.faulted = false →
      (∀ e, decodeCommand (BitVec.ofNat 32 data) = .error e → FaultsWith (.wr 3 data) s .illegalCommand) ∧
      (∀ k : Command, decodeCommand (BitVec.ofNat 32 data) = .ok k →
        (k.op ≠ .bitlen → s.crc.b = 0 → FaultsWith (.wr 3 data) s .divisorZero) ∧
        (k.op = .build ∨ k.op = .lfsr → s.crc.b ≠ 0 →
          (s.crc.n.toNat > s.W → FaultsWith (.wr 3 data) s .widthRange) ∧
          (s.crc.n.toNat ≤ s.W → bitlen s.crc.a.toNat > s.crc.n.toNat →
            FaultsWith (.wr 3 data) s .widthTruncation) ∧
          (s.crc.n.toNat ≤ s.W → bitlen s.crc.a.toNat ≤ s.crc.n.toNat → k.op = .build →
            s.crc.n.toNat + degree s.crc.b.toNat > s.W → FaultsWith (.wr 3 data) s .overflow))) ∧
      (∀ idx : RegIndex, idx ≠ 3 →
        ∃ u, exec (.wr idx data) s = .next u ∧
          (u.faulted = false ∨ u.crc.status.cause = FaultCause.badAccess.code)) ∧
      (∀ idx : RegIndex,
        ∃ u, exec (.rd idx) s = .next u ∧
          (u.faulted = false ∨ u.crc.status.cause = FaultCause.badAccess.code)))

/-- R214: after a request that raises a fault, every register but STATUS, the trace stream and the width are as before. The
list of returned values and the pending events are the model's own fields (log entries 3 and 4): at most the value 0 that
R207 gives is added, and the request is taken. -/
def Obligations.FaultsArePrecise : Prop :=
  ∀ (s u : State) (h : PortHeader) (data : BitVec (portWidth s.W)) (rest : List (HostEvent (portWidth s.W))),
    s.inbox = .request h data :: rest → s.faulted = false → step s = .next u → u.faulted = true →
    ∃ f : FaultCause,
      u = { s with crc := { s.crc with status := ⟨false, true, f.code⟩ }, inbox := rest } ∨
      u = { s with
        crc := { s.crc with status := ⟨false, true, f.code⟩ }, returned := s.returned ++ [0], inbox := rest }

/-- R210 over runs: once FAULT is 1, through any number of events without a reset, FAULT stays 1, CAUSE keeps its value, no
result register changes and no record is emitted; and if STATUS was legal it does not change at all. -/
def Obligations.FaultIsStickyUntilReset : Prop :=
  ∀ (k : Nat) (s u : State), s.faulted = true → (∀ e ∈ s.inbox.take k, e ≠ .reset) → runFor k s = .next u →
    u.faulted = true ∧ u.crc.status.cause = s.crc.status.cause ∧
    u.registers.drop 4 = s.registers.drop 4 ∧ u.crc.trace.length = s.crc.trace.length ∧
    (s.crc.status.legal → u.crc.status = s.crc.status)

/-! ## The port -/

/-- R181: RD of a register that may be read completes with the register's value on the port, also while FAULT is 1, and
changes nothing else; RD of CMD or of a reserved index returns 0 and raises BadAccess. That the value is added to the
list of returned values is the model's own field, log entry 4. -/
def Obligations.RdReturnsTheRegister : Prop :=
  ∀ s : State,
    exec (.rd 0) s = .next { s with returned := s.returned ++ [s.crc.a.setWidth (portWidth s.W)] } ∧
    exec (.rd 1) s = .next { s with returned := s.returned ++ [s.crc.b.setWidth (portWidth s.W)] } ∧
    exec (.rd 2) s = .next { s with returned := s.returned ++ [s.crc.n.setWidth (portWidth s.W)] } ∧
    exec (.rd 4) s = .next { s with returned := s.returned ++ [s.crc.status.word.setWidth (portWidth s.W)] } ∧
    exec (.rd 5) s = .next { s with returned := s.returned ++ [s.crc.res0.setWidth (portWidth s.W)] } ∧
    exec (.rd 6) s = .next { s with returned := s.returned ++ [s.crc.res1.setWidth (portWidth s.W)] } ∧
    exec (.rd 7) s = .next { s with returned := s.returned ++ [s.crc.res0W.setWidth (portWidth s.W)] } ∧
    exec (.rd 8) s = .next { s with returned := s.returned ++ [s.crc.res1W.setWidth (portWidth s.W)] } ∧
    (∀ idx : RegIndex, idx = 3 ∨ idx.toNat ≥ 9 →
      exec (.rd idx) s =
        .next { s with crc := s.crc.faultEntry .badAccess, returned := s.returned ++ [0] })

/-- R182: WR of A, B or N stores the data that fits and changes nothing else, also while FAULT is 1; WR of CMD is the
command its low 32 bits decode to, or IllegalCommand; any other WR raises BadAccess and writes nothing. -/
def Obligations.WrWritesTheRegisterOrIssues : Prop :=
  ∀ (s : State) (data : Nat),
    exec (.wr 0 data) s = .next { s with crc := { s.crc with a := BitVec.ofNat s.W data } } ∧
    exec (.wr 1 data) s = .next { s with crc := { s.crc with b := BitVec.ofNat s.W data } } ∧
    exec (.wr 2 data) s = .next { s with crc := { s.crc with n := BitVec.ofNat 32 data } } ∧
    (∀ k : Command, decodeCommand (BitVec.ofNat 32 data) = .ok k → exec (.wr 3 data) s = exec k.toInstr s) ∧
    (∀ e, decodeCommand (BitVec.ofNat 32 data) = .error e →
      (s.faulted = true → exec (.wr 3 data) s = .next s) ∧
      (s.faulted = false → FaultsWith (.wr 3 data) s .illegalCommand)) ∧
    (∀ idx : RegIndex, idx.toNat ≥ 4 →
      exec (.wr idx data) s = .next { s with crc := s.crc.faultEntry .badAccess })

/-- R54: the bus is max(W, 32) bits wide; what a write leaves in A, B or N and a read of it then returns is the data modulo
2 to the register's width; and a read of any register that may be read returns exactly its value. -/
def Obligations.PortTruncatesAndZeroExtends : Prop :=
  ∀ (s : State) (data : Nat),
    portWidth s.W = max s.W 32 ∧
    (∀ (idx : RegIndex) (w : Nat), (idx = 0 ∧ w = s.W) ∨ (idx = 1 ∧ w = s.W) ∨ (idx = 2 ∧ w = 32) →
      ∃ (c : CrcCore s.W) (v : BitVec (portWidth s.W)),
        exec (.wr idx data) s = .next { s with crc := c } ∧
        exec (.rd idx) { s with crc := c } = .next { s with crc := c, returned := s.returned ++ [v] } ∧
        v.toNat = data % 2 ^ w) ∧
    (∀ (idx : RegIndex) (x : Nat),
      (idx.toNat, x) ∈ [(0, s.crc.a.toNat), (1, s.crc.b.toNat), (2, s.crc.n.toNat), (4, s.crc.status.word.toNat),
        (5, s.crc.res0.toNat), (6, s.crc.res1.toNat), (7, s.crc.res0W.toNat), (8, s.crc.res1W.toNat)] →
      ∃ v : BitVec (portWidth s.W),
        exec (.rd idx) s = .next { s with returned := s.returned ++ [v] } ∧ v.toNat = x)

/-- Which request changes what (R22, R23, R24, R29, R57): A, B and N change only by a WR of that register; the result
registers and the trace stream only by a CMD write; whatever the state, FAULT and the operands. -/
def Obligations.OnlyTheNamedRequestChangesARegister : Prop :=
  ∀ (s : State) (h : PortHeader) (data : BitVec (portWidth s.W)) (rest : List (HostEvent (portWidth s.W))),
    s.inbox = .request h data :: rest →
    ∃ (c : CrcCore s.W) (ret : List (BitVec (portWidth s.W))),
      step s = .next { s with crc := c, returned := ret, inbox := rest } ∧
      (h ≠ 0b10000#5 → c.a = s.crc.a) ∧ (h ≠ 0b10001#5 → c.b = s.crc.b) ∧ (h ≠ 0b10010#5 → c.n = s.crc.n) ∧
      (h ≠ 0b10011#5 → c.res0 = s.crc.res0 ∧ c.res1 = s.crc.res1 ∧ c.res0W = s.crc.res0W ∧
        c.res1W = s.crc.res1W ∧ c.trace = s.crc.trace) ∧
      (kindField h = true → ret = s.returned) ∧ (kindField h = false → ∃ v, ret = s.returned ++ [v])

/-! ## Dependence and the trace -/

/-- R34: what a command does depends only on the command and on A, B and N: two cores of one width, neither faulted, that
agree on these end with the same results, the same fault or completion, and the same new records, whatever else they
held. -/
def Obligations.ResultsDependOnlyOnWordAndOperands : Prop :=
  ∀ (k : Command) (s : State) (c d : CrcCore s.W), c.a = d.a → c.b = d.b → c.n = d.n →
    c.status.fault = false → d.status.fault = false →
    ∃ (c' d' : CrcCore s.W) (recs : List (TraceRecord s.W)),
      exec k.toInstr { s with crc := c } = .next { s with crc := c' } ∧
      exec k.toInstr { s with crc := d } = .next { s with crc := d' } ∧
      c'.status.fault = d'.status.fault ∧ c'.status.done = d'.status.done ∧
      (c'.status.fault = true → c'.status.cause = d'.status.cause) ∧
      (c'.status.fault = false →
        c'.res0 = d'.res0 ∧ c'.res0W = d'.res0W ∧ c'.res1 = d'.res1 ∧ c'.res1W = d'.res1W) ∧
      c'.trace = c.trace ++ recs ∧ d'.trace = d.trace ++ recs

/-- R190: a request leaves the earlier records as they are and appends after them; it appends something only if it is a
CMD write of a command with T = 1; and a reset empties the stream. -/
def Obligations.TraceIsAppendOnly : Prop :=
  (∀ (s : State) (h : PortHeader) (data : BitVec (portWidth s.W)) (rest : List (HostEvent (portWidth s.W))),
    s.inbox = .request h data :: rest →
    ∃ (c : CrcCore s.W) (ret : List (BitVec (portWidth s.W))) (recs : List (TraceRecord s.W)),
      step s = .next { s with crc := c, returned := ret, inbox := rest } ∧ c.trace = s.crc.trace ++ recs ∧
      (recs ≠ [] → h = 0b10011#5 ∧ ∃ op, decodeCommand (BitVec.ofNat 32 data.toNat) = .ok ⟨op, true⟩)) ∧
  (∀ (s : State) (rest : List (HostEvent (portWidth s.W))), s.inbox = .reset :: rest →
    ∃ u, step s = .next u ∧ u.crc.trace = [])

/-- R193: for every run, deleting all trace records and flipping the T bit of every command leaves the final register file
and STATUS unchanged. -/
def Obligations.TracingChangesNoRegister : Prop :=
  ∀ (k : Nat) (s u : State), runFor k s = .next u →
    ∃ v, runFor k s.flipTrace = .next v ∧ v.registers = u.registers
end

