-- ==== Sys2Proof/Laws/State.lean ====
section
/-! SUPPORT. One lemma per field per update of the core and of the machine's state, each true by definition, so that no
proof unfolds a record update. -/

namespace Sys2Proof.Machine


@[simp] theorem CrcCore.writeA_a {W : Nat} (d : Nat) (c : CrcCore W) : (c.writeA d).a = truncTo W d := rfl
@[simp] theorem CrcCore.writeA_b {W : Nat} (d : Nat) (c : CrcCore W) : (c.writeA d).b = c.b := rfl
@[simp] theorem CrcCore.writeA_n {W : Nat} (d : Nat) (c : CrcCore W) : (c.writeA d).n = c.n := rfl
@[simp] theorem CrcCore.writeA_status {W : Nat} (d : Nat) (c : CrcCore W) : (c.writeA d).status = c.status := rfl
@[simp] theorem CrcCore.writeA_res0 {W : Nat} (d : Nat) (c : CrcCore W) : (c.writeA d).res0 = c.res0 := rfl
@[simp] theorem CrcCore.writeA_res1 {W : Nat} (d : Nat) (c : CrcCore W) : (c.writeA d).res1 = c.res1 := rfl
@[simp] theorem CrcCore.writeA_res0W {W : Nat} (d : Nat) (c : CrcCore W) : (c.writeA d).res0W = c.res0W := rfl
@[simp] theorem CrcCore.writeA_res1W {W : Nat} (d : Nat) (c : CrcCore W) : (c.writeA d).res1W = c.res1W := rfl
@[simp] theorem CrcCore.writeA_trace {W : Nat} (d : Nat) (c : CrcCore W) : (c.writeA d).trace = c.trace := rfl

@[simp] theorem CrcCore.writeB_a {W : Nat} (d : Nat) (c : CrcCore W) : (c.writeB d).a = c.a := rfl
@[simp] theorem CrcCore.writeB_b {W : Nat} (d : Nat) (c : CrcCore W) : (c.writeB d).b = truncTo W d := rfl
@[simp] theorem CrcCore.writeB_n {W : Nat} (d : Nat) (c : CrcCore W) : (c.writeB d).n = c.n := rfl
@[simp] theorem CrcCore.writeB_status {W : Nat} (d : Nat) (c : CrcCore W) : (c.writeB d).status = c.status := rfl
@[simp] theorem CrcCore.writeB_res0 {W : Nat} (d : Nat) (c : CrcCore W) : (c.writeB d).res0 = c.res0 := rfl
@[simp] theorem CrcCore.writeB_res1 {W : Nat} (d : Nat) (c : CrcCore W) : (c.writeB d).res1 = c.res1 := rfl
@[simp] theorem CrcCore.writeB_res0W {W : Nat} (d : Nat) (c : CrcCore W) : (c.writeB d).res0W = c.res0W := rfl
@[simp] theorem CrcCore.writeB_res1W {W : Nat} (d : Nat) (c : CrcCore W) : (c.writeB d).res1W = c.res1W := rfl
@[simp] theorem CrcCore.writeB_trace {W : Nat} (d : Nat) (c : CrcCore W) : (c.writeB d).trace = c.trace := rfl

@[simp] theorem CrcCore.writeN_a {W : Nat} (d : Nat) (c : CrcCore W) : (c.writeN d).a = c.a := rfl
@[simp] theorem CrcCore.writeN_b {W : Nat} (d : Nat) (c : CrcCore W) : (c.writeN d).b = c.b := rfl
@[simp] theorem CrcCore.writeN_n {W : Nat} (d : Nat) (c : CrcCore W) : (c.writeN d).n = truncTo 32 d := rfl
@[simp] theorem CrcCore.writeN_status {W : Nat} (d : Nat) (c : CrcCore W) : (c.writeN d).status = c.status := rfl
@[simp] theorem CrcCore.writeN_res0 {W : Nat} (d : Nat) (c : CrcCore W) : (c.writeN d).res0 = c.res0 := rfl
@[simp] theorem CrcCore.writeN_res1 {W : Nat} (d : Nat) (c : CrcCore W) : (c.writeN d).res1 = c.res1 := rfl
@[simp] theorem CrcCore.writeN_res0W {W : Nat} (d : Nat) (c : CrcCore W) : (c.writeN d).res0W = c.res0W := rfl
@[simp] theorem CrcCore.writeN_res1W {W : Nat} (d : Nat) (c : CrcCore W) : (c.writeN d).res1W = c.res1W := rfl
@[simp] theorem CrcCore.writeN_trace {W : Nat} (d : Nat) (c : CrcCore W) : (c.writeN d).trace = c.trace := rfl

@[simp] theorem CrcCore.faultEntry_a {W : Nat} (f : FaultCause) (c : CrcCore W) : (c.faultEntry f).a = c.a := rfl
@[simp] theorem CrcCore.faultEntry_b {W : Nat} (f : FaultCause) (c : CrcCore W) : (c.faultEntry f).b = c.b := rfl
@[simp] theorem CrcCore.faultEntry_n {W : Nat} (f : FaultCause) (c : CrcCore W) : (c.faultEntry f).n = c.n := rfl
@[simp] theorem CrcCore.faultEntry_status {W : Nat} (f : FaultCause) (c : CrcCore W) : (c.faultEntry f).status = c.status.raise f := rfl
@[simp] theorem CrcCore.faultEntry_res0 {W : Nat} (f : FaultCause) (c : CrcCore W) : (c.faultEntry f).res0 = c.res0 := rfl
@[simp] theorem CrcCore.faultEntry_res1 {W : Nat} (f : FaultCause) (c : CrcCore W) : (c.faultEntry f).res1 = c.res1 := rfl
@[simp] theorem CrcCore.faultEntry_res0W {W : Nat} (f : FaultCause) (c : CrcCore W) : (c.faultEntry f).res0W = c.res0W := rfl
@[simp] theorem CrcCore.faultEntry_res1W {W : Nat} (f : FaultCause) (c : CrcCore W) : (c.faultEntry f).res1W = c.res1W := rfl
@[simp] theorem CrcCore.faultEntry_trace {W : Nat} (f : FaultCause) (c : CrcCore W) : (c.faultEntry f).trace = c.trace := rfl

@[simp] theorem CrcCore.complete_a {W : Nat} (r : Results W) (c : CrcCore W) : (c.complete r).a = c.a := rfl
@[simp] theorem CrcCore.complete_b {W : Nat} (r : Results W) (c : CrcCore W) : (c.complete r).b = c.b := rfl
@[simp] theorem CrcCore.complete_n {W : Nat} (r : Results W) (c : CrcCore W) : (c.complete r).n = c.n := rfl
@[simp] theorem CrcCore.complete_status {W : Nat} (r : Results W) (c : CrcCore W) : (c.complete r).status = c.status.complete := rfl
@[simp] theorem CrcCore.complete_res0 {W : Nat} (r : Results W) (c : CrcCore W) : (c.complete r).res0 = truncTo W r.res0 := rfl
@[simp] theorem CrcCore.complete_res1 {W : Nat} (r : Results W) (c : CrcCore W) : (c.complete r).res1 = truncTo W r.res1 := rfl
@[simp] theorem CrcCore.complete_res0W {W : Nat} (r : Results W) (c : CrcCore W) : (c.complete r).res0W = truncTo 32 r.res0W := rfl
@[simp] theorem CrcCore.complete_res1W {W : Nat} (r : Results W) (c : CrcCore W) : (c.complete r).res1W = truncTo 32 r.res1W := rfl
@[simp] theorem CrcCore.complete_trace {W : Nat} (r : Results W) (c : CrcCore W) : (c.complete r).trace = c.trace ++ r.recs := rfl

@[simp] theorem CrcCore.reset_a (W : Nat) : (CrcCore.reset W).a = 0 := rfl
@[simp] theorem CrcCore.reset_b (W : Nat) : (CrcCore.reset W).b = 0 := rfl
@[simp] theorem CrcCore.reset_n (W : Nat) : (CrcCore.reset W).n = 0 := rfl
@[simp] theorem CrcCore.reset_status (W : Nat) : (CrcCore.reset W).status = ⟨false, false, 0⟩ := rfl
@[simp] theorem CrcCore.reset_res0 (W : Nat) : (CrcCore.reset W).res0 = 0 := rfl
@[simp] theorem CrcCore.reset_res1 (W : Nat) : (CrcCore.reset W).res1 = 0 := rfl
@[simp] theorem CrcCore.reset_res0W (W : Nat) : (CrcCore.reset W).res0W = 0 := rfl
@[simp] theorem CrcCore.reset_res1W (W : Nat) : (CrcCore.reset W).res1W = 0 := rfl
@[simp] theorem CrcCore.reset_trace (W : Nat) : (CrcCore.reset W).trace = [] := rfl

@[simp] theorem State.mapCore_W (s : State) (f : CrcCore s.W → CrcCore s.W) : (s.mapCore f).W = s.W := rfl
@[simp] theorem State.mapCore_crc (s : State) (f : CrcCore s.W → CrcCore s.W) : (s.mapCore f).crc = f s.crc := rfl
@[simp] theorem State.mapCore_returned (s : State) (f : CrcCore s.W → CrcCore s.W) : (s.mapCore f).returned = s.returned := rfl
@[simp] theorem State.mapCore_inbox (s : State) (f : CrcCore s.W → CrcCore s.W) : (s.mapCore f).inbox = s.inbox := rfl

@[simp] theorem State.returning_W (s : State) (v : BitVec (portWidth s.W)) : (s.returning v).W = s.W := rfl
@[simp] theorem State.returning_crc (s : State) (v : BitVec (portWidth s.W)) : (s.returning v).crc = s.crc := rfl
@[simp] theorem State.returning_returned (s : State) (v : BitVec (portWidth s.W)) : (s.returning v).returned = s.returned ++ [v] := rfl
@[simp] theorem State.returning_inbox (s : State) (v : BitVec (portWidth s.W)) : (s.returning v).inbox = s.inbox := rfl

@[simp] theorem State.badAccess_W (s : State) : (s.badAccess).W = s.W := rfl
@[simp] theorem State.badAccess_crc (s : State) : (s.badAccess).crc = s.crc.faultEntry .badAccess := rfl
@[simp] theorem State.badAccess_returned (s : State) : (s.badAccess).returned = s.returned := rfl
@[simp] theorem State.badAccess_inbox (s : State) : (s.badAccess).inbox = s.inbox := rfl

@[simp] theorem State.withInbox_W (s : State) (evs : List (HostEvent (portWidth s.W))) : (s.withInbox evs).W = s.W := rfl
@[simp] theorem State.withInbox_crc (s : State) (evs : List (HostEvent (portWidth s.W))) : (s.withInbox evs).crc = s.crc := rfl
@[simp] theorem State.withInbox_returned (s : State) (evs : List (HostEvent (portWidth s.W))) : (s.withInbox evs).returned = s.returned := rfl
@[simp] theorem State.withInbox_inbox (s : State) (evs : List (HostEvent (portWidth s.W))) : (s.withInbox evs).inbox = evs := rfl

@[simp] theorem State.takeReset_W (s : State) : (s.takeReset).W = s.W := rfl
@[simp] theorem State.takeReset_crc (s : State) : (s.takeReset).crc = CrcCore.reset s.W := rfl
@[simp] theorem State.takeReset_returned (s : State) : (s.takeReset).returned = s.returned := rfl
@[simp] theorem State.takeReset_inbox (s : State) : (s.takeReset).inbox = s.inbox := rfl

@[simp] theorem State.resetAt_W (W : Nat) : (State.resetAt W).W = W := rfl
@[simp] theorem State.resetAt_crc (W : Nat) : (State.resetAt W).crc = CrcCore.reset W := rfl
@[simp] theorem State.resetAt_returned (W : Nat) : (State.resetAt W).returned = [] := rfl
@[simp] theorem State.resetAt_inbox (W : Nat) : (State.resetAt W).inbox = [] := rfl

@[simp] theorem Status.complete_done (st : Status) : st.complete.done = true := rfl
@[simp] theorem Status.complete_fault (st : Status) : st.complete.fault = st.fault := rfl
@[simp] theorem Status.complete_cause (st : Status) : st.complete.cause = st.cause := rfl
@[simp] theorem Status.raise_done (f : FaultCause) (st : Status) : (st.raise f).done = false := rfl
@[simp] theorem Status.raise_fault (f : FaultCause) (st : Status) : (st.raise f).fault = true := rfl
@[simp] theorem Status.raise_cause (f : FaultCause) (st : Status) : (st.raise f).cause = if st.fault then st.cause else f.code := rfl

/-! The same updates of a state written out as its four fields: after `obtain ⟨W, c, ret, evs⟩ := s` no type mentions a
state any more. -/

section
variable {W : Nat} (c : CrcCore W) (ret : List (BitVec (portWidth W))) (evs : List (HostEvent (portWidth W)))

@[simp] theorem State.mapCore_mk (f : CrcCore W → CrcCore W) :
    State.mapCore ⟨W, c, ret, evs⟩ f = ⟨W, f c, ret, evs⟩ := rfl

@[simp] theorem State.returning_mk (v : BitVec (portWidth W)) :
    State.returning ⟨W, c, ret, evs⟩ v = ⟨W, c, ret ++ [v], evs⟩ := rfl

@[simp] theorem State.badAccess_mk :
    State.badAccess ⟨W, c, ret, evs⟩ = ⟨W, c.faultEntry .badAccess, ret, evs⟩ := rfl

@[simp] theorem State.withInbox_mk (evs' : List (HostEvent (portWidth W))) :
    State.withInbox ⟨W, c, ret, evs⟩ evs' = ⟨W, c, ret, evs'⟩ := rfl

@[simp] theorem State.takeReset_mk :
    State.takeReset ⟨W, c, ret, evs⟩ = ⟨W, CrcCore.reset W, ret, evs⟩ := rfl

end

end Sys2Proof.Machine
end

