-- ==== Sys2Proof/Laws/Ops.lean ====
section
/-! SUPPORT. For each shared operation, what it can do. -/

namespace Sys2Proof.Machine

@[simp] theorem bitlen_zero : bitlen 0 = 0 := rfl

/-- bitlen is the library's bit size, so the library's lemmas about it apply. -/
theorem bitlen_eq_size (x : Nat) : bitlen x = x.size := by
  unfold bitlen
  split
  · next h => simp [h]
  · next h =>
    apply le_antisymm
    · exact Nat.lt_size.mpr (Nat.log2_self_le h)
    · exact Nat.size_le.mpr Nat.lt_log2_self

@[simp] theorem bitlen_eq_zero {x : Nat} : bitlen x = 0 ↔ x = 0 := by
  rw [bitlen_eq_size, Nat.size_eq_zero]

/-- A nonzero polynomial has one more bit than its degree (R9). -/
theorem bitlen_eq_degree_add_one {G : Nat} (h : G ≠ 0) : bitlen G = degree G + 1 := by
  have : bitlen G ≠ 0 := by simpa using h
  unfold degree
  omega

@[simp] theorem CrcCore.opA_eq {W : Nat} (c : CrcCore W) : c.opA = c.a.toNat := rfl

@[simp] theorem CrcCore.opB_eq {W : Nat} (c : CrcCore W) : c.opB = c.b.toNat := rfl

@[simp] theorem CrcCore.opN_eq {W : Nat} (c : CrcCore W) : c.opN = c.n.toNat := rfl

/-- A register of value 0 is the zero word. -/
theorem toNat_eq_zero_iff {w : Nat} (v : BitVec w) : v.toNat = 0 ↔ v = 0 := by simp [BitVec.toNat_eq]

@[simp] theorem truncTo_toNat (w v : Nat) : (truncTo w v).toNat = v % 2 ^ w := by simp [truncTo]

/-- A number short enough for a register loses nothing in it. -/
theorem truncTo_toNat_of_bitlen_le {w v : Nat} (h : bitlen v ≤ w) : (truncTo w v).toNat = v := by
  rw [bitlen_eq_size, Nat.size_le] at h
  simp [Nat.mod_eq_of_lt h]

/-- The port is at least as wide as the registers, so a read of a W-bit register keeps its value. -/
theorem toPort_toNat_datapath {W : Nat} (v : BitVec W) : (toPort W v).toNat = v.toNat := by
  have h : 2 ^ W ≤ 2 ^ portWidth W := Nat.pow_le_pow_right (by decide) (le_max_left ..)
  simp [toPort, Nat.mod_eq_of_lt (v.isLt.trans_le h)]

/-- The port is at least 32 bits wide, so a read of a 32-bit register keeps its value. -/
theorem toPort_toNat_word (W : Nat) (v : Word32) : (toPort W v).toNat = v.toNat := by
  have h : 2 ^ 32 ≤ 2 ^ portWidth W := Nat.pow_le_pow_right (by decide) (le_max_right ..)
  simp [toPort, Nat.mod_eq_of_lt (v.isLt.trans_le h)]

@[simp] theorem emit_true {W : Nat} (recs : List (TraceRecord W)) (r : TraceRecord W) :
    emit true recs r = recs ++ [r] := rfl

@[simp] theorem emit_false {W : Nat} (recs : List (TraceRecord W)) (r : TraceRecord W) :
    emit false recs r = recs := rfl

/-- The FAULT gate, closed. -/
@[simp] theorem CrcCore.gated_of_fault {W : Nat} {c : CrcCore W} (f : CrcCore W → CrcCore W)
    (h : c.status.fault = true) : c.gated f = c := by simp [CrcCore.gated, h]

/-- The FAULT gate, open. -/
@[simp] theorem CrcCore.gated_of_not_fault {W : Nat} {c : CrcCore W} (f : CrcCore W → CrcCore W)
    (h : c.status.fault = false) : c.gated f = f c := by simp [CrcCore.gated, h]

/-- All a command's body can do: enter the fault its check names, or complete with its results. -/
theorem CrcCore.perform_cases {W : Nat} (check : CrcCore W → Option FaultCause) (results : CrcCore W → Results W)
    (c : CrcCore W) :
    (∃ f, check c = some f ∧ c.perform check results = c.faultEntry f) ∨
      (check c = none ∧ c.perform check results = c.complete (results c)) := by
  unfold CrcCore.perform
  cases check c with
  | some f => exact .inl ⟨f, rfl, rfl⟩
  | none => exact .inr ⟨rfl, rfl⟩

/-- All a command can do behind the FAULT gate. -/
theorem CrcCore.gated_perform_cases {W : Nat} (check : CrcCore W → Option FaultCause)
    (results : CrcCore W → Results W) (c : CrcCore W) :
    (c.status.fault = true ∧ c.gated (CrcCore.perform check results) = c) ∨
      (c.status.fault = false ∧ ∃ f, check c = some f ∧
        c.gated (CrcCore.perform check results) = c.faultEntry f) ∨
      (c.status.fault = false ∧ check c = none ∧
        c.gated (CrcCore.perform check results) = c.complete (results c)) := by
  cases h : c.status.fault with
  | true => exact .inl ⟨rfl, CrcCore.gated_of_fault _ h⟩
  | false =>
    right
    rw [CrcCore.gated_of_not_fault _ h]
    rcases c.perform_cases check results with ⟨f, hf, he⟩ | ⟨hn, he⟩
    · exact .inl ⟨rfl, f, hf, he⟩
    · exact .inr ⟨rfl, hn, he⟩

/-- The register map (R21), index by index: the named registers and the reserved indices. -/
theorem regAt_cases (idx : RegIndex) :
    (idx = 0 ∧ regAt idx = some .A) ∨ (idx = 1 ∧ regAt idx = some .B) ∨ (idx = 2 ∧ regAt idx = some .N) ∨
      (idx = 3 ∧ regAt idx = some .CMD) ∨ (idx = 4 ∧ regAt idx = some .STATUS) ∨
      (idx = 5 ∧ regAt idx = some .RES0) ∨ (idx = 6 ∧ regAt idx = some .RES1) ∨
      (idx = 7 ∧ regAt idx = some .RES0_W) ∨ (idx = 8 ∧ regAt idx = some .RES1_W) ∨
      (9 ≤ idx.toNat ∧ regAt idx = none) := by
  revert idx
  decide

/-- A legal RD is one of a register that is not write only (R21, R207). -/
theorem readable_iff (idx : RegIndex) : readable idx = true ↔ idx.toNat ≤ 8 ∧ idx ≠ 3 := by
  revert idx
  decide

/-- A legal WR is one of a register that is not read only (R21, R207). -/
theorem writable_iff (idx : RegIndex) : writable idx = true ↔ idx.toNat ≤ 3 := by
  revert idx
  decide

end Sys2Proof.Machine
end

