-- ==== Sys2Proof/Laws/Engines.lean ====
section
/-! SUPPORT. The equations of the two engines, the divider and the LFSR, and that their trace bit changes no value. -/

namespace Sys2Proof.Machine

/-- The short circuit (R112). -/
theorem divide_of_short {D G : Nat} (W : Nat) (t : Bool) (h : bitlen D < bitlen G) :
    divide W D G t = { q := 0, qw := 0, rem := D, rw := bitlen G - 1, recs := [] } := by
  simp [divide, h]

/-- The loop (R110, R113). -/
theorem divide_of_long {D G : Nat} (W : Nat) (t : Bool) (h : bitlen G ≤ bitlen D) :
    divide W D G t =
      let v : DivState W := divLoop D G (bitlen D - bitlen G) t (bitlen D - bitlen G)
        { rem := D >>> (bitlen D - bitlen G), qacc := 0, recs := [] }
      { q := v.qacc, qw := bitlen D - bitlen G + 1, rem := v.rem, rw := bitlen G - 1, recs := v.recs } := by
  simp [divide, Nat.not_lt.mpr h]

@[simp] theorem divLoop_zero {W : Nat} (D G top : Nat) (t : Bool) (v : DivState W) :
    divLoop D G top t 0 v = divIteration D G top t 0 v := rfl

@[simp] theorem divLoop_succ {W : Nat} (D G top : Nat) (t : Bool) (aux : Nat) (v : DivState W) :
    divLoop D G top t (aux + 1) v = divLoop D G top t aux (divIteration D G top t (aux + 1) v) := rfl

@[simp] theorem lfsrLoop_zero {W : Nat} (M n G : Nat) (t : Bool) (c : Nat) (v : LfsrState W) :
    lfsrLoop M n G t 0 c v = v := rfl

@[simp] theorem lfsrLoop_succ {W : Nat} (M n G : Nat) (t : Bool) (count c : Nat) (v : LfsrState W) :
    lfsrLoop M n G t (count + 1) c v = lfsrLoop M n G t count (c + 1) (lfsrCycle M n G t c v) := rfl

/-- One more cycle of a run, from its other end. -/
theorem lfsrLoop_last {W : Nat} (M n G : Nat) (t : Bool) (count c : Nat) (v : LfsrState W) :
    lfsrLoop M n G t (count + 1) c v = lfsrCycle M n G t (c + count) (lfsrLoop M n G t count c v) := by
  induction count generalizing c v with
  | zero => rfl
  | succ k ih => rw [lfsrLoop_succ, ih, lfsrLoop_succ, Nat.add_right_comm, Nat.add_assoc]

/-- The values of a division do not depend on its trace bit nor on the records so far (R72). -/
theorem divLoop_values_eq {W : Nat} (D G top : Nat) (t t' : Bool) (aux : Nat) (v v' : DivState W)
    (hr : v.rem = v'.rem) (hq : v.qacc = v'.qacc) :
    (divLoop D G top t aux v).rem = (divLoop D G top t' aux v').rem ∧
      (divLoop D G top t aux v).qacc = (divLoop D G top t' aux v').qacc := by
  induction aux generalizing v v' with
  | zero => simp [divIteration, hr, hq]
  | succ aux ih => exact ih _ _ (by simp [divIteration, hr]) (by simp [divIteration, hr, hq])

/-- The register of a run does not depend on its trace bit nor on the records so far (R72). -/
theorem lfsrLoop_reg_eq {W : Nat} (M n G : Nat) (t t' : Bool) (count c : Nat) (v v' : LfsrState W)
    (hr : v.reg = v'.reg) :
    (lfsrLoop M n G t count c v).reg = (lfsrLoop M n G t' count c v').reg := by
  induction count generalizing c v v' with
  | zero => exact hr
  | succ count ih => exact ih _ _ _ (by simp [lfsrCycle, hr])

/-- The register never holds more than m bits (R36, R164). -/
theorem lfsrLoop_reg_lt {W : Nat} (M n G : Nat) (t : Bool) (count c : Nat) (v : LfsrState W)
    (h : v.reg < 2 ^ degree G) : (lfsrLoop M n G t count c v).reg < 2 ^ degree G := by
  induction count generalizing c v with
  | zero => exact h
  | succ count ih =>
    refine ih _ _ ?_
    have hs : ∀ i, shiftIn (degree G) v.reg i < 2 ^ degree G := fun i => Nat.mod_lt _ (by positivity)
    have ht : tapMask G < 2 ^ degree G := Nat.mod_lt _ (by positivity)
    simp only [lfsrCycle]
    split
    · exact Nat.xor_lt_two_pow (hs _) ht
    · exact hs _

end Sys2Proof.Machine
end

