-- ==== Sys2Proof/Laws/Gf2.lean ====
section
/-! SUPPORT. Arithmetic over GF(2): bit lengths as bounds, and the carry-less product as a product that distributes over
XOR and over shifts (R15, R16). -/

namespace Sys2Proof.Machine

/-- A bit length as a bound. -/
theorem bitlen_le_iff {x w : Nat} : bitlen x ≤ w ↔ x < 2 ^ w := by rw [bitlen_eq_size, Nat.size_le]

/-- A bit length from below. -/
theorem lt_bitlen_iff {x w : Nat} : w < bitlen x ↔ 2 ^ w ≤ x := by rw [bitlen_eq_size, Nat.lt_size]

/-- An unsigned number is at least as large as its bit length. -/
theorem bitlen_le_self (x : Nat) : bitlen x ≤ x := bitlen_le_iff.mpr Nat.lt_two_pow_self

/-- The value of a W-bit register has at most W significant bits. -/
theorem bitlen_toNat_le {w : Nat} (v : BitVec w) : bitlen v.toNat ≤ w := bitlen_le_iff.mpr v.isLt

/-- The bit below the bit length is set. -/
theorem testBit_of_bitlen_eq {x k : Nat} (h : bitlen x = k + 1) : x.testBit k = true := by
  have h1 : 2 ^ k ≤ x := lt_bitlen_iff.mp (by omega)
  have h2 : x < 2 ^ (k + 1) := bitlen_le_iff.mp (by omega)
  rw [Nat.testBit_eq_decide_div_mod_eq, Nat.div_eq_of_lt_le (by omega) (by omega : x < (1 + 1) * 2 ^ k)]
  decide

/-- Two values of the same bit length cancel their top bits (R114, R116). -/
theorem bitlen_xor_lt {x y : Nat} (h : bitlen x = bitlen y) (hx : x ≠ 0) : bitlen (x ^^^ y) < bitlen x := by
  obtain ⟨k, hk⟩ := Nat.exists_eq_succ_of_ne_zero (bitlen_eq_zero.not.mpr hx)
  rw [hk, Nat.lt_succ_iff, bitlen_le_iff]
  apply Nat.lt_pow_two_of_testBit
  intro i hi
  rcases hi.eq_or_lt with rfl | hi
  · simp [testBit_of_bitlen_eq hk, testBit_of_bitlen_eq (h ▸ hk)]
  · have hx' : x < 2 ^ i := (bitlen_le_iff.mp hk.le).trans_le (Nat.pow_le_pow_right (by decide) hi)
    have hy' : y < 2 ^ i := (bitlen_le_iff.mp (h ▸ hk.le)).trans_le (Nat.pow_le_pow_right (by decide) hi)
    simp [Nat.testBit_lt_two_pow hx', Nat.testBit_lt_two_pow hy']

/-- Bring down a bit, as arithmetic (R115, R164). -/
theorem shiftLeft_or_bit (v : Nat) (b : Bool) : (v <<< 1) ||| b.toNat = 2 * v + b.toNat := by
  rw [Nat.shiftLeft_eq, Nat.pow_one, Nat.mul_comm]
  exact (Nat.two_pow_add_eq_or_of_lt (i := 1) (by cases b <;> decide) v).symm

/-- The same step as an XOR. -/
theorem shiftLeft_xor_bit (v : Nat) (b : Bool) : 2 * v + b.toNat = (v <<< 1) ^^^ b.toNat := by
  apply Nat.eq_of_testBit_eq
  intro i
  cases i with
  | zero => cases b <;> (simp; try omega)
  | succ i =>
    have h : (2 * v + b.toNat) / 2 = v := by cases b <;> (simp; try omega)
    have hb : b.toNat / 2 = 0 := by cases b <;> rfl
    rw [Nat.testBit_succ, h, Nat.testBit_xor, Nat.testBit_shiftLeft, Nat.testBit_succ b.toNat, hb]
    simp

theorem clmulBelow_xor (a b g k : Nat) : clmulBelow (a ^^^ b) g k = clmulBelow a g k ^^^ clmulBelow b g k := by
  induction k with
  | zero => simp [clmulBelow]
  | succ k ih =>
    simp only [clmulBelow, ih]
    split
    · rw [Nat.shiftLeft_xor_distrib]
      ac_rfl
    · simp

theorem clmulBelow_shiftLeft (a g k s : Nat) : clmulBelow (a <<< s) g k = clmulBelow a g k <<< s := by
  induction k with
  | zero => simp [clmulBelow]
  | succ k ih =>
    simp only [clmulBelow, ih, Nat.shiftLeft_xor_distrib]
    split
    · simp only [← Nat.shiftLeft_add, Nat.add_comm]
    · simp

theorem clmulBelow_one (g k : Nat) : clmulBelow 1 g k = g % 2 ^ k := by
  induction k with
  | zero => simp [clmulBelow, Nat.mod_one]
  | succ k ih =>
    rw [clmulBelow, ih]
    apply Nat.eq_of_testBit_eq
    intro i
    have hk : (if g.testBit k then 1 <<< k else 0).testBit i = (decide (k = i) && g.testBit k) := by
      cases g.testBit k <;> simp [Nat.testBit_two_pow, Nat.one_shiftLeft]
    rw [Nat.testBit_xor, hk, Nat.testBit_mod_two_pow, Nat.testBit_mod_two_pow]
    rcases Nat.lt_trichotomy i k with h | rfl | h
    · simp [h, show i < k + 1 by omega, show k ≠ i by omega]
    · simp
    · simp [show ¬ i < k by omega, show ¬ i < k + 1 by omega, show k ≠ i by omega]

/-- The carry-less product distributes over XOR. -/
theorem clmul_xor_left (a b g : Nat) : clmul (a ^^^ b) g = clmul a g ^^^ clmul b g := clmulBelow_xor ..

/-- Shifting a factor shifts the product. -/
theorem clmul_shiftLeft (a g s : Nat) : clmul (a <<< s) g = clmul a g <<< s := clmulBelow_shiftLeft ..

@[simp] theorem clmul_one_left (g : Nat) : clmul 1 g = g := by
  rw [clmul, clmulBelow_one]
  exact Nat.mod_eq_of_lt (bitlen_le_iff.mp le_rfl)

@[simp] theorem clmul_zero_left (g : Nat) : clmul 0 g = 0 := by
  unfold clmul
  induction bitlen g with
  | zero => rfl
  | succ k ih => simp [clmulBelow, ih]

/-- One step of either engine, as algebra: bring in a bit, and subtract g or not with the quotient bit. -/
theorem divMod_step {a g q r : Nat} (h : a = clmul q g ^^^ r) (i b : Bool) :
    2 * a + i.toNat = clmul (2 * q + b.toNat) g ^^^ ((2 * r + i.toNat) ^^^ (if b then g else 0)) := by
  have hb : clmul b.toNat g = if b then g else 0 := by cases b <;> simp
  have hx : ∀ x y z w : Nat, x ^^^ y ^^^ z = (x ^^^ w) ^^^ ((y ^^^ z) ^^^ w) := by
    intro x y z w
    apply Nat.eq_of_testBit_eq
    intro j
    simp only [Nat.testBit_xor]
    cases x.testBit j <;> cases y.testBit j <;> cases z.testBit j <;> cases w.testBit j <;> rfl
  rw [shiftLeft_xor_bit a, shiftLeft_xor_bit q, shiftLeft_xor_bit r, clmul_xor_left, clmul_shiftLeft, hb, h,
    Nat.shiftLeft_xor_distrib]
  exact hx ..

end Sys2Proof.Machine
end

