-- ==== Sys2Proof/Laws/PerInstr.lean ====
section
/-! SUPPORT. A statement about every instruction as syntax, one lemma per constructor: its encoding fits its row of
spec/opcode_table.json. -/

namespace Sys2Proof.Laws.EncodingFitsTable

/-- The encoding of an instruction has the format of its row of the opcode table, and its fixed bits the row's values: for
a command the row's match under the row's mask, for RD and WR the bit K. -/
def Statement (i : Instr) : Prop :=
  ∀ P : Nat,
    match i, encode P i with
    | .bitlen _, .command c => c &&& 0xFFFFFFEF#32 = 0x00000001#32
    | .divide _, .command c => c &&& 0xFFFFFFEF#32 = 0x00000002#32
    | .build _, .command c => c &&& 0xFFFFFFEF#32 = 0x00000003#32
    | .lfsr _, .command c => c &&& 0xFFFFFFEF#32 = 0x00000004#32
    | .rd idx, .request h _ => h.getLsbD 4 = false ∧ h.extractLsb' 0 4 = idx
    | .wr idx _, .request h _ => h.getLsbD 4 = true ∧ h.extractLsb' 0 4 = idx
    | _, _ => False

theorem bitlen (t : Bool) : Statement (.bitlen t) := fun _ => by cases t <;> rfl

theorem divide (t : Bool) : Statement (.divide t) := fun _ => by cases t <;> rfl

theorem build (t : Bool) : Statement (.build t) := fun _ => by cases t <;> rfl

theorem lfsr (t : Bool) : Statement (.lfsr t) := fun _ => by cases t <;> rfl

theorem rd (idx : RegIndex) : Statement (.rd idx) := fun _ => by
  simp only [encode]
  revert idx
  decide

theorem wr (idx : RegIndex) (data : Nat) : Statement (.wr idx data) := fun _ => by
  simp only [encode]
  revert idx
  decide

end Sys2Proof.Laws.EncodingFitsTable
end

