-- ==== Sys2Proof/Laws/Step.lean ====
section
/-! SUPPORT. What a step and each instruction can do. -/

namespace Sys2Proof.Machine

@[simp] theorem runFor_zero (s : State) : runFor 0 s = .next s := rfl

/-- A run takes one step and then the rest (R187). -/
theorem runFor_succ {k : Nat} {s s' : State} (h : step s = .next s') : runFor (k + 1) s = runFor k s' := by
  have h' : Host.Core.step Sys2Proof.core s = .next s' := h
  simp only [runFor, Host.Core.run, h']
  rfl

section
variable {W : Nat} (c : CrcCore W) (ret : List (BitVec (portWidth W))) (evs : List (HostEvent (portWidth W)))

@[simp] theorem State.faulted_mk : State.faulted ⟨W, c, ret, evs⟩ = c.status.fault := rfl

/-- With nothing pending the core keeps its state (R222). -/
@[simp] theorem step_idle : step ⟨W, c, ret, []⟩ = .next ⟨W, c, ret, []⟩ := rfl

/-- A reset (R230). -/
@[simp] theorem step_reset : step ⟨W, c, ret, .reset :: evs⟩ = .next ⟨W, CrcCore.reset W, ret, evs⟩ := rfl

/-- A port request is executed (R56). -/
@[simp] theorem step_request (h : PortHeader) (data : BitVec (portWidth W)) :
    step ⟨W, c, ret, .request h data :: evs⟩ = exec (decodeRequest h data) ⟨W, c, ret, evs⟩ := rfl

/-- RD of a register that may be read (R181). -/
theorem exec_rd {idx : RegIndex} {r : Reg} (h : regAt idx = some r) (hr : r ≠ .CMD) :
    exec (.rd idx) ⟨W, c, ret, evs⟩ = .next ⟨W, c, ret ++ [c.readReg r], evs⟩ := by
  cases r <;> first | exact absurd rfl hr | simp [exec, execRd, h]

/-- Any other RD (R207). -/
theorem exec_rd_bad {idx : RegIndex} (h : regAt idx = some .CMD ∨ regAt idx = none) :
    exec (.rd idx) ⟨W, c, ret, evs⟩ = .next ⟨W, c.faultEntry .badAccess, ret ++ [0], evs⟩ := by
  rcases h with h | h <;> simp [exec, execRd, h]

/-- WR of A (R182). -/
theorem exec_wr_A (d : Nat) : exec (.wr 0 d) ⟨W, c, ret, evs⟩ = .next ⟨W, c.writeA d, ret, evs⟩ := rfl

/-- WR of B (R182). -/
theorem exec_wr_B (d : Nat) : exec (.wr 1 d) ⟨W, c, ret, evs⟩ = .next ⟨W, c.writeB d, ret, evs⟩ := rfl

/-- WR of N (R182). -/
theorem exec_wr_N (d : Nat) : exec (.wr 2 d) ⟨W, c, ret, evs⟩ = .next ⟨W, c.writeN d, ret, evs⟩ := rfl

/-- WR of CMD issues (R182). -/
theorem exec_wr_CMD (d : Nat) (s : State) : exec (.wr 3 d) s = execIssue (truncTo 32 d) s := rfl

/-- Any other WR (R207). -/
theorem exec_wr_bad {idx : RegIndex} (h : 4 ≤ idx.toNat) (d : Nat) :
    exec (.wr idx d) ⟨W, c, ret, evs⟩ = .next ⟨W, c.faultEntry .badAccess, ret, evs⟩ := by
  rcases regAt_cases idx with ⟨rfl, _⟩ | ⟨rfl, _⟩ | ⟨rfl, _⟩ | ⟨rfl, _⟩ | ⟨_, e⟩ | ⟨_, e⟩ | ⟨_, e⟩ | ⟨_, e⟩ | ⟨_, e⟩ |
    ⟨_, e⟩
  · exact absurd h (by decide)
  · exact absurd h (by decide)
  · exact absurd h (by decide)
  · exact absurd h (by decide)
  all_goals simp [exec, execWr, e]

end

/-- The check of a command (R102, R111, R141, R161). -/
def checkOf (op : Op) {W : Nat} (c : CrcCore W) : Option FaultCause :=
  match op with
  | .bitlen => bitlenCheck c
  | .divide => divideCheck c
  | .build => buildCheck c
  | .lfsr => lfsrCheck c

/-- The results of a command that passes its check. -/
def resultsOf (k : Command) {W : Nat} (c : CrcCore W) : Results W :=
  match k.op with
  | .bitlen => bitlenResults c
  | .divide => divideResults k.trace c
  | .build => buildResults k.trace c
  | .lfsr => lfsrResults k.trace c

/-- What a command does to the core: the gate, the check, and the results. -/
def commandCore (k : Command) {W : Nat} (c : CrcCore W) : CrcCore W :=
  c.gated (CrcCore.perform (checkOf k.op) (resultsOf k))

/-- The one shape of the four commands. -/
theorem exec_command (k : Command) (s : State) :
    exec k.toInstr s = .next (s.mapCore (commandCore k)) := by
  obtain ⟨op, t⟩ := k
  cases op <;> rfl

@[simp] theorem exec_command_mk (k : Command) {W : Nat} (c : CrcCore W) (ret : List (BitVec (portWidth W)))
    (evs : List (HostEvent (portWidth W))) :
    exec k.toInstr ⟨W, c, ret, evs⟩ = .next ⟨W, commandCore k c, ret, evs⟩ := exec_command k _

/-- All a command can do to the core: nothing while FAULT is 1, the fault of its check, or completion. -/
theorem commandCore_cases (k : Command) {W : Nat} (c : CrcCore W) :
    (c.status.fault = true ∧ commandCore k c = c) ∨
      (c.status.fault = false ∧ ∃ f, checkOf k.op c = some f ∧ commandCore k c = c.faultEntry f) ∨
      (c.status.fault = false ∧ checkOf k.op c = none ∧ commandCore k c = c.complete (resultsOf k c)) :=
  CrcCore.gated_perform_cases (checkOf k.op) (resultsOf k) c

/-- A write to CMD of a word that is a command is that command. -/
theorem execIssue_of_command {c : Word32} {k : Command} (h : decodeCommand c = .ok k) (s : State) :
    execIssue c s = exec k.toInstr s := by
  obtain ⟨op, t⟩ := k
  cases op <;> simp [execIssue, h, Command.toInstr, exec]

/-- A write to CMD of any other word raises IllegalCommand behind the gate (R206). -/
theorem execIssue_of_illegal {c : Word32} {e : DecodeRefusal} (h : decodeCommand c = .error e) (s : State) :
    execIssue c s = .next (s.mapCore (CrcCore.gated (CrcCore.faultEntry .illegalCommand))) := by
  simp [execIssue, h]

/-- All a port request can do to the core: nothing, one write of A, B or N, a command, or a fault. -/
theorem exec_request_cases (hd : PortHeader) {W : Nat} (data : BitVec (portWidth W)) (c : CrcCore W)
    (ret : List (BitVec (portWidth W))) (evs : List (HostEvent (portWidth W))) :
    (∃ v c', exec (decodeRequest hd data) ⟨W, c, ret, evs⟩ = .next ⟨W, c', ret ++ [v], evs⟩ ∧
        kindField hd = false ∧ (c' = c ∨ (v = 0 ∧ c' = c.faultEntry .badAccess))) ∨
      (∃ c', exec (decodeRequest hd data) ⟨W, c, ret, evs⟩ = .next ⟨W, c', ret, evs⟩ ∧ kindField hd = true ∧
        ((hd = 0b10000#5 ∧ c' = c.writeA data.toNat) ∨ (hd = 0b10001#5 ∧ c' = c.writeB data.toNat) ∨
          (hd = 0b10010#5 ∧ c' = c.writeN data.toNat) ∨
          (hd = 0b10011#5 ∧ ∃ k, decodeCommand (truncTo 32 data.toNat) = .ok k ∧ c' = commandCore k c) ∨
          (hd = 0b10011#5 ∧ (∃ e, decodeCommand (truncTo 32 data.toNat) = .error e) ∧
            c' = c.gated (CrcCore.faultEntry .illegalCommand)) ∨
          (hd.toNat ≥ 20 ∧ c' = c.faultEntry .badAccess))) := by
  cases hk : kindField hd with
  | false =>
    left
    have hd' : decodeRequest hd data = .rd (indexField hd) := by simp [decodeRequest, hk]
    rw [hd']
    cases hr : regAt (indexField hd) with
    | none => exact ⟨0, _, exec_rd_bad c ret evs (.inr hr), rfl, .inr ⟨rfl, rfl⟩⟩
    | some r =>
      by_cases hC : r = .CMD
      · exact ⟨0, _, exec_rd_bad c ret evs (.inl (hC ▸ hr)), rfl, .inr ⟨rfl, rfl⟩⟩
      · exact ⟨_, c, exec_rd c ret evs hr hC, rfl, .inl rfl⟩
  | true =>
    right
    have hd' : decodeRequest hd data = .wr (indexField hd) data.toNat := by simp [decodeRequest, hk]
    rw [hd']
    have hcases : (hd = 0b10000#5 ∧ indexField hd = 0) ∨ (hd = 0b10001#5 ∧ indexField hd = 1) ∨
        (hd = 0b10010#5 ∧ indexField hd = 2) ∨ (hd = 0b10011#5 ∧ indexField hd = 3) ∨
        (hd.toNat ≥ 20 ∧ 4 ≤ (indexField hd).toNat) := by
      clear hd'
      revert hd
      decide
    rcases hcases with ⟨h, hi⟩ | ⟨h, hi⟩ | ⟨h, hi⟩ | ⟨h, hi⟩ | ⟨h, hi⟩
    · rw [hi]
      exact ⟨_, exec_wr_A c ret evs _, rfl, .inl ⟨h, rfl⟩⟩
    · rw [hi]
      exact ⟨_, exec_wr_B c ret evs _, rfl, .inr (.inl ⟨h, rfl⟩)⟩
    · rw [hi]
      exact ⟨_, exec_wr_N c ret evs _, rfl, .inr (.inr (.inl ⟨h, rfl⟩))⟩
    · rw [hi, exec_wr_CMD]
      cases hc : decodeCommand (truncTo 32 data.toNat) with
      | ok k =>
        exact ⟨_, (execIssue_of_command hc _).trans (exec_command_mk k c ret evs), rfl,
          .inr (.inr (.inr (.inl ⟨h, k, rfl, rfl⟩)))⟩
      | error e =>
        exact ⟨_, execIssue_of_illegal hc _, rfl, .inr (.inr (.inr (.inr (.inl ⟨h, ⟨e, rfl⟩, rfl⟩))))⟩
    · exact ⟨_, exec_wr_bad c ret evs hi _, rfl, .inr (.inr (.inr (.inr (.inr ⟨h, rfl⟩))))⟩

end Sys2Proof.Machine
end

