-- ==== Sys2Proof/Machine/Assembler.lean ====
section
/-! DEFINITION. The host's notation (30_encoding.md section 4): the lines of the assembler syntax (R79), the
pseudo-instructions (R80), their expansion into port requests, and a parser of one line. The core sees only the expanded
requests (R80), so no meaning of an instruction depends on this file. -/

namespace Sys2Proof.Machine

/-- One line of a host program (R79, R80). A pseudo-instruction carries the T bit of its `.t` suffix. -/
inductive HostLine where
  | rd (idx : RegIndex)
  | wr (idx : RegIndex) (value : Nat)
  | cmd (op : Op) (t : Bool)
  | cmdWord (c : Word32)
  | div (t : Bool) (D G : Nat)
  | crc (t : Bool) (M N G : Nat)
  | lfsr (t : Bool) (M N G : Nat)
  | check (t : Bool) (CW G : Nat)
  | bitlen (t : Bool) (V : Nat)
deriving DecidableEq, Repr

/-- The index of a named register (R21). -/
def Reg.index : Reg → RegIndex
  | .A => 0
  | .B => 1
  | .N => 2
  | .CMD => 3
  | .STATUS => 4
  | .RES0 => 5
  | .RES1 => 6
  | .RES0_W => 7
  | .RES1_W => 8

/-- `cmd OP` and `cmd OP.t`: the write of OP's command word to CMD (R79). -/
def cmdRequest (op : Op) (t : Bool) : Instr := .wr Reg.CMD.index (encodeCommand ⟨op, t⟩).toNat

/-- The port requests a line stands for, in order (R79, R80). -/
def HostLine.expand : HostLine → List Instr
  | .rd idx => [.rd idx]
  | .wr idx v => [.wr idx v]
  | .cmd op t => [cmdRequest op t]
  | .cmdWord c => [.wr Reg.CMD.index c.toNat]
  | .div t D G => [.wr Reg.A.index D, .wr Reg.B.index G, cmdRequest .divide t]
  | .crc t M N G => [.wr Reg.A.index M, .wr Reg.N.index N, .wr Reg.B.index G, cmdRequest .build t]
  | .lfsr t M N G => [.wr Reg.A.index M, .wr Reg.N.index N, .wr Reg.B.index G, cmdRequest .lfsr t]
  | .check t CW G => [.wr Reg.A.index CW, .wr Reg.B.index G, cmdRequest .divide t, .rd Reg.RES1.index]
  | .bitlen t V => [.wr Reg.A.index V, cmdRequest .bitlen t]

/-- The events a host program issues on a port P bits wide. -/
def hostEvents (P : Nat) (lines : List HostLine) : List (HostEvent P) :=
  (lines.flatMap HostLine.expand).map fun i => eventOf (encode P i)

/-- The value of a digit of a number in some base up to 16. -/
def digitValue (base : Nat) (ch : Char) : Option Nat :=
  let v :=
    if '0' ≤ ch ∧ ch ≤ '9' then ch.toNat - '0'.toNat
    else if 'a' ≤ ch ∧ ch ≤ 'f' then ch.toNat - 'a'.toNat + 10
    else if 'A' ≤ ch ∧ ch ≤ 'F' then ch.toNat - 'A'.toNat + 10
    else 16
  if v < base then some v else none

/-- The number that digits spell after a number read so far. -/
def readDigits (base : Nat) : Nat → List Char → Option Nat
  | v, [] => some v
  | v, ch :: rest =>
    match digitValue base ch with
    | some d => readDigits base (v * base + d) rest
    | none => none

/-- A number: at least one digit of its base. -/
def readNumber (base : Nat) : List Char → Option Nat
  | [] => none
  | ch :: rest => readDigits base 0 (ch :: rest)

/-- A value: decimal, hex with `0x` or binary with `0b` (R79). -/
def parseValue : List Char → Option Nat
  | '0' :: 'x' :: ds => readNumber 16 ds
  | '0' :: 'b' :: ds => readNumber 2 ds
  | ds => readNumber 10 ds

/-- A register name as R21 spells it. -/
def parseRegName : List Char → Option Reg
  | ['A'] => some .A
  | ['B'] => some .B
  | ['N'] => some .N
  | ['C', 'M', 'D'] => some .CMD
  | ['S', 'T', 'A', 'T', 'U', 'S'] => some .STATUS
  | ['R', 'E', 'S', '0'] => some .RES0
  | ['R', 'E', 'S', '1'] => some .RES1
  | ['R', 'E', 'S', '0', '_', 'W'] => some .RES0_W
  | ['R', 'E', 'S', '1', '_', 'W'] => some .RES1_W
  | _ => none

/-- A register operand: a name, or a decimal index from 0 to 15 (R79). -/
def parseIndex (w : List Char) : Option RegIndex :=
  match parseRegName w with
  | some r => some r.index
  | none =>
    match readNumber 10 w with
    | some v => if v < 16 then some (BitVec.ofNat 4 v) else none
    | none => none

/-- The operation names of `cmd` (R79), in lower case. -/
def parseOp : List Char → Option Op
  | ['b', 'i', 't', 'l', 'e', 'n'] => some .bitlen
  | ['d', 'i', 'v', 'i', 'd', 'e'] => some .divide
  | ['b', 'u', 'i', 'l', 'd'] => some .build
  | ['l', 'f', 's', 'r'] => some .lfsr
  | _ => none

/-- The text before a comment (R79). -/
def stripComment : List Char → List Char := List.takeWhile (· ≠ ';')

/-- A blank between words. -/
def isBlank (ch : Char) : Bool := ch = ' ' || ch = '\t'

/-- A word without the blanks around it. -/
def trimBlanks (w : List Char) : List Char := ((w.dropWhile isBlank).reverse.dropWhile isBlank).reverse

/-- The pieces between commas. -/
def splitCommas : List Char → List (List Char)
  | [] => [[]]
  | ch :: rest =>
    if ch = ',' then [] :: splitCommas rest
    else
      match splitCommas rest with
      | w :: ws => (ch :: w) :: ws
      | [] => [[ch]]

/-- A name in lower case, without its `.t` suffix, and whether it had one (R79, R80). -/
def splitSuffix (w : List Char) : List Char × Bool :=
  let l := w.map Char.toLower
  match l.reverse with
  | 't' :: '.' :: rest => (rest.reverse, true)
  | _ => (l, false)

/-- The operand of `cmd`: an operation, with or without `.t`, or a raw command word in hex (R79). -/
def parseCmd (w : List Char) : Option HostLine :=
  let p := splitSuffix w
  match parseOp p.1, w with
  | some op, _ => some (.cmd op p.2)
  | none, '0' :: 'x' :: ds =>
    match readNumber 16 ds with
    | some v => if v < 2 ^ 32 then some (.cmdWord (BitVec.ofNat 32 v)) else none
    | none => none
  | none, _ => none

/-- A line from its name, T suffix and operands (R79, R80). -/
def parseOperands (name : List Char) (t : Bool) (args : List (List Char)) : Option HostLine :=
  match name, args with
  | ['r', 'd'], [i] => if t then none else (parseIndex i).map .rd
  | ['w', 'r'], [i, v] =>
    if t then none else (parseIndex i).bind fun idx => (parseValue v).map (.wr idx)
  | ['c', 'm', 'd'], [o] => if t then none else parseCmd o
  | ['d', 'i', 'v'], [d, g] => (parseValue d).bind fun D => (parseValue g).map (.div t D)
  | ['c', 'r', 'c'], [m, n, g] =>
    (parseValue m).bind fun M => (parseValue n).bind fun N => (parseValue g).map (.crc t M N)
  | ['l', 'f', 's', 'r'], [m, n, g] =>
    (parseValue m).bind fun M => (parseValue n).bind fun N => (parseValue g).map (.lfsr t M N)
  | ['c', 'h', 'e', 'c', 'k'], [c, g] => (parseValue c).bind fun CW => (parseValue g).map (.check t CW)
  | ['b', 'i', 't', 'l', 'e', 'n'], [v] => (parseValue v).map (.bitlen t)
  | _, _ => none

/-- One line of a host program (R79): its mnemonic in any case, then its operands separated by commas, up to a comment.
None where the line is blank or has no such form (log entry 10). -/
def parseLine (line : List Char) : Option HostLine :=
  let text := trimBlanks (stripComment line)
  let p := splitSuffix (text.takeWhile (! isBlank ·))
  parseOperands p.1 p.2 ((splitCommas (text.dropWhile (! isBlank ·))).map trimBlanks)

end Sys2Proof.Machine
end

