-- ==== Sys2Proof/Tests/Slice0.lean ====
section
/-! SUPPORT. The model's own tests. Expected values come from the spec: the encoding tables of 30_encoding.md, the vectors
of 95_test_vectors.md (named in each comment) and the fault codes of R201. The last section shows, for every statement
that has hypotheses, a concrete state and operands that meet them all. -/

namespace Sys2Proof.Tests

open Sys2Proof.Machine

/-- The state an outcome goes on in. -/
def nextOf : Host.Outcome State Fault Refusal → Option State
  | .next s => some s
  | .fault _ => none
  | .refused _ => none

/-- A core of width W right after reset, with A, B and N written. -/
def operands (W a b n : Nat) : State :=
  { State.resetAt W with
    crc := { CrcCore.reset W with a := BitVec.ofNat W a, b := BitVec.ofNat W b, n := BitVec.ofNat 32 n } }

/-- The same core after DivisorZero has been raised. -/
def faultedOperands (W a b n : Nat) : State :=
  { operands W a b n with crc := { (operands W a b n).crc with status := ⟨false, true, 1⟩ } }

/-- The state with one request pending. -/
def pending (s : State) (h : PortHeader) (data : Nat) : State :=
  { s with inbox := [.request h (BitVec.ofNat _ data)] }

/-- RES0, RES0_W, RES1, RES1_W and STATUS after an instruction. -/
def resultsAfter (i : Instr) (s : State) : Option (List Nat) :=
  (nextOf (exec i s)).map fun u => u.registers.drop 3

/-- STATUS after an instruction. -/
def statusAfter (i : Instr) (s : State) : Option Nat :=
  (nextOf (exec i s)).map fun u => u.crc.status.word.toNat

/-- The trace stream after an instruction, where it goes on at width W. -/
def traceAfter (W : Nat) (i : Instr) (s : State) : Option (List (TraceRecord W)) :=
  match nextOf (exec i s) with
  | some u => if h : u.W = W then some (h ▸ u.crc.trace) else none
  | none => none

/-! ## Decoding: words written out from the encoding tables -/

/-- R70, R71: OP = 1 in bits 3:0, T = 0. -/
theorem test_decode_bitlen :
    decode (P := 64) (.command 0b00000000000000000000000000000001#32) = .ok (.bitlen false) := by decide

/-- R70, R71: OP = 2, T = 1 in bit 4. -/
theorem test_decode_divide_traced :
    decode (P := 64) (.command 0b00000000000000000000000000010010#32) = .ok (.divide true) := by decide

/-- R70, R71: OP = 3. -/
theorem test_decode_build :
    decode (P := 64) (.command 0b00000000000000000000000000000011#32) = .ok (.build false) := by decide

/-- R70, R71: OP = 4, T = 1. -/
theorem test_decode_lfsr_traced :
    decode (P := 64) (.command 0b00000000000000000000000000010100#32) = .ok (.lfsr true) := by decide

/-- R76: 0IIII with IIII = 6, RES1. -/
theorem test_decode_rd : decode (P := 64) (.request 0b00110#5 0) = .ok (.rd 6) := by decide

/-- R76: 1IIII with IIII = 1, B. -/
theorem test_decode_wr : decode (P := 64) (.request 0b10001#5 0x5B) = .ok (.wr 1 0x5B) := by decide

/-- R74: the all-zero word (V-FLT-09) and OP = 0xF with T = 1 (V-FLT-11) are reserved opcodes. -/
theorem test_decode_reserved_opcode :
    decodeCommand 0x00000000 = .error .reservedOpcode ∧ decodeCommand 0x0000001F = .error .reservedOpcode := by decide

/-- R74: bit 5 (V-FLT-12) and bit 31 (V-FLT-13) are reserved. -/
theorem test_decode_reserved_bits :
    decodeCommand 0x00000022 = .error .reservedBits ∧ decodeCommand 0x80000001 = .error .reservedBits := by decide

/-- The words of spec/opcode_table.json through its own numbering. -/
theorem test_decode_table_word :
    decodeTableWord 32 0x00000013 = some (.build true) ∧ decodeTableWord 32 0x00000005 = none ∧
      decodeTableWord 8 0b00100 = some (.rd 4) ∧ decodeTableWord 8 0b10010 = some (.wr 2 0) := by decide

/-- The words of P3: `wr B` has header 10001 and `cmd divide` is a WR of 0x2 with header 10011. -/
theorem test_encode_as_request :
    (encode 64 (.wr 1 7)).toRequest = (0b10001#5, 7#64) ∧
      (encode 64 (.divide false)).toRequest = (0b10011#5, 2#64) := by decide

/-! ## Well-formedness -/

/-- The one check: data that does not fit the port's P bits is refused. At W = 64 it has 64 bits, at W = 8 it has 32. -/
theorem test_wellFormed_refuses_wide_data :
    (Instr.wr 0 (2 ^ 64)).wellFormed 64 = false ∧ (Instr.wr 0 (2 ^ 64 - 1)).wellFormed 64 = true ∧
      (Instr.wr 2 (2 ^ 32)).wellFormed 8 = false ∧ (Instr.wr 2 (2 ^ 32 - 1)).wellFormed 8 = true := by decide

/-! ## Commands -/

/-- V-BL-03. The list is STATUS, RES0, RES1, RES0_W, RES1_W. -/
theorem test_bitlen_polynomial :
    resultsAfter (.bitlen true) (operands 64 0x5B 0 0) = some [0x01, 7, 0, 7, 0] := by decide

/-- V-BL-06: all ones. -/
theorem test_bitlen_all_ones :
    resultsAfter (.bitlen false) (operands 64 0xFFFFFFFFFFFFFFFF 0 0) = some [0x01, 64, 0, 7, 0] := by decide

/-- V-DIV-02: equal bit lengths subtract although 5 < 7. -/
theorem test_divide_by_bit_length :
    resultsAfter (.divide false) (operands 64 0x5 0x7 0) = some [0x01, 0x1, 0x2, 1, 2] := by decide

/-- The trace of V-DIV-13, section 3.1. -/
theorem test_divide_trace :
    traceAfter 64 (.divide true) (operands 64 0b1101 0b110 0) =
      some [.divStep 0 1 true 0b110 0b000 0b001, .divStep 1 0 false 0 0b001 0b001] := by decide

/-- V-BLD-01, the source's scenario. -/
theorem test_build_scenario :
    resultsAfter (.build false) (operands 64 0x88888181 0x5B 32) =
      some [0x01, 0x222220605E, 0x1E, 38, 6] := by decide

/-- V-FLT-20: WidthTruncation is reported before Overflow. -/
theorem test_build_priority :
    statusAfter (.build false) (operands 64 0x1F 0x8000000000000000 4) = some 0x22 := by decide

/-- V-LFSR-10, an 8-bit FCS. -/
theorem test_lfsr_eight_bits :
    resultsAfter (.lfsr false) (operands 64 0xD3 0x107 8) = some [0x01, 0, 0x37, 0, 8] := by decide

/-- The trace of V-LFSR-09, section 6.1. -/
theorem test_lfsr_trace :
    traceAfter 64 (.lfsr true) (operands 64 0b101 0b111 3) =
      some [.lfsrCycle 0 .msg true false 2 0b01, .lfsrCycle 1 .msg false false 2 0b10,
        .lfsrCycle 2 .msg true true 2 0b10, .lfsrCycle 3 .flush false true 2 0b11,
        .lfsrCycle 4 .flush false true 2 0b01] := by decide

/-! ## Port requests, and the step -/

/-- P3, requests 3 and 7: STATUS reads 0x12 after DivisorZero, and `rd 9` returns 0 and keeps the first cause. -/
theorem test_rd_of_faulted_core :
    (nextOf (exec (.rd 4) (faultedOperands 64 5 0 0))).map (fun u => u.returned.map BitVec.toNat) = some [0x12] ∧
      (nextOf (exec (.rd 9) (faultedOperands 64 5 0 0))).map
        (fun u => (u.returned.map BitVec.toNat, u.crc.status.word.toNat)) = some ([0], 0x12) := by decide

/-- V-FLT-14: RD of CMD returns 0 and raises BadAccess. -/
theorem test_rd_of_CMD :
    (nextOf (exec (.rd 3) (operands 64 0 0 0))).map
      (fun u => (u.returned.map BitVec.toNat, u.crc.status.word.toNat)) = some ([0], 0x62) := by decide

/-- V-PORT-03: the data bits above the 32 bits of N are dropped. -/
theorem test_wr_truncates :
    (nextOf (exec (.wr 2 0x100000005) (operands 64 0 0 0))).map (fun u => u.crc.n.toNat) = some 5 := by decide

/-- V-PORT-05: CMD takes data bits 31:0; the word is a legal DIVIDE of 0 by 1. -/
theorem test_wr_CMD_takes_low_bits :
    statusAfter (.wr 3 0xFFFFFFFF00000002) (operands 64 0 1 0) = some 0x01 := by decide

/-- V-FLT-16: WR of STATUS is not performed and raises BadAccess. -/
theorem test_wr_read_only : statusAfter (.wr 4 0) (operands 64 0 0 0) = some 0x62 := by decide

/-- A table word placed first is run by the next step: DIVIDE after reset raises DivisorZero (R233). -/
theorem test_step_runs_placed_word :
    (nextOf (step (State.reset.withFetchWord 32 0x00000002))).map
      (fun u => (u.crc.status.word.toNat, u.inbox.length)) = some (0x12, 0) := by decide

/-- R230: a reset clears a faulted core. -/
theorem test_step_reset :
    (nextOf (step { faultedOperands 64 5 7 3 with inbox := [.reset] })).map (fun u => u.registers) =
      some [0, 0, 0, 0, 0, 0, 0, 0] := by decide

/-! ## The host's notation -/

/-- R79: `cmd divide.t` is `wr CMD, 0x00000012`, whatever the case, and a comment is dropped. -/
theorem test_parse_cmd :
    (parseLine ['C', 'm', 'd', ' ', 'd', 'i', 'v', 'i', 'd', 'e', '.', 't', ' ', ';', 'x']).map HostLine.expand =
      some [.wr 3 0x12] := by decide

/-- R79: `rd 9` is the header 01001. -/
theorem test_parse_rd_index :
    (parseLine ['r', 'd', ' ', '9']).map (fun l => hostEvents 64 [l]) = some [.request 0b01001#5 0] := by decide

/-- R80: `check CW, G` expands to four requests. -/
theorem test_parse_check :
    (parseLine ['c', 'h', 'e', 'c', 'k', ' ', '0', 'x', '5', 'B', ',', ' ', '0', 'b', '1', '1']).map HostLine.expand =
      some [.wr 0 0x5B, .wr 1 3, .wr 3 2, .rd 6] := by decide

/-! ## Witnesses: for every statement with hypotheses, a state and operands that meet them, clause by clause -/

theorem witness_ExactlyEightWordsAreCommands :
    (∀ k, decodeCommand 0x00000005 ≠ .ok k) ∧ (operands 64 5 0 0).faulted = false :=
  ⟨fun k => by
    rw [show decodeCommand 0x00000005 = .error .reservedOpcode by decide]
    exact nofun, by decide⟩

theorem witness_DecodeOfEncodeIsTheInstruction :
    (Instr.wr 15 (2 ^ 64 - 1)).wellFormed 64 = true ∧ (Instr.wr 0 (2 ^ 32 - 1)).wellFormed 1 = true ∧
      (Instr.rd 15).wellFormed 1 = true ∧ (Instr.lfsr true).wellFormed 1 = true := by decide

theorem witness_EncodeOfDecodeIsTheWord :
    decode (P := 64) (.command 0x00000014) = .ok (.lfsr true) ∧ kindField 0b10011#5 = true ∧
      kindField 0b01111#5 = false := by decide

theorem witness_StepRunsTheDecodedRequest :
    (pending (operands 64 1 1 1) 0b10011#5 0x12).inbox = [.request 0b10011#5 0x12#64] ∧
      decode (.request 0b10011#5 0x12#64) = .ok (.wr 3 0x12) := by decide

theorem witness_StepRunsTheCommandWrittenToCmd :
    (pending (operands 64 1 1 1) 0b10011#5 0xFFFFFFFF00000012).inbox = [.request 0b10011#5 0xFFFFFFFF00000012#64] ∧
      (0x00000012 : Word32).toNat = (0xFFFFFFFF00000012#64).toNat % 2 ^ 32 ∧
      decode (P := 64) (.command 0x00000012) = .ok (.divide true) := by decide

theorem witness_PlacedTableWordIsTheNextInstruction :
    decodeTableWord 32 0x00000013 = some (.build true) ∧ decodeTableWord 8 0b11111 = some (.wr 15 0) ∧
      decodeTableWord 5 0 = some (.rd 0) := by decide

theorem witness_OnlyResetClearsTheFault :
    ({ faultedOperands 64 5 7 3 with inbox := [.reset] } : State).inbox = [.reset] ∧
      (pending (faultedOperands 64 5 7 3) 0b10011#5 2).faulted = true ∧
      (pending (faultedOperands 64 5 7 3) 0b10011#5 2).inbox.head? ≠ some .reset ∧
      (∃ u, step (pending (faultedOperands 64 5 7 3) 0b10011#5 2) = .next u) :=
  ⟨rfl, by decide, by decide, _, rfl⟩

theorem witness_InvariantHoldsAtReset : Config.legalWidth 1 ∧ Config.legalWidth 64 ∧ Config.legalWidth (2 ^ 32 - 1) := by
  decide

/-- A width-1 core and a pending traced DIVIDE. -/
theorem witness_EveryStepKeepsTheInvariant :
    ∃ u, (pending (operands 1 1 1 0) 0b10011#5 0x12).Inv ∧ step (pending (operands 1 1 1 0) 0b10011#5 0x12) = .next u :=
  ⟨_, ⟨by decide, by decide, by decide, fun _ h => absurd h List.not_mem_nil⟩, rfl⟩

theorem witness_BitlenIsTheHighestSetBitPlusOne : (1 : Nat) ≠ 0 ∧ bitlen 1 = 0 + 1 ∧ (1 : Nat).testBit 0 = true := by
  decide

theorem witness_BitlenBounds :
    0 < 2 ^ 0 ∧ 1 < 2 ^ 1 ∧ 1 > 0 ∧ bitlen 5 = 3 ∧ bitlen 7 = 3 ∧ 3 > 0 ∧ bitlen 1 = 1 ∧ 0 < 2 ∧ 1 < 2 := by decide

theorem witness_BitlenCompletes :
    (operands 1 1 0 0).faulted = false ∧
      (operands 64 0 0 0).faulted = false := by decide

theorem witness_DivideCompletes :
    (operands 64 5 7 0).faulted = false ∧ (operands 64 5 7 0).crc.b ≠ 0 ∧
      (operands 64 5 0 0).faulted = false ∧ (operands 64 5 0 0).crc.b = 0 := by decide

theorem witness_DividerRunsTheLoop :
    bitlen 3 < bitlen 5 ∧ (6 : Nat) ≠ 0 ∧ bitlen 13 ≥ bitlen 6 ∧ 1 + 0 = bitlen 13 - bitlen 6 ∧
      0 + 1 = bitlen 13 - bitlen 6 := by decide

theorem witness_DivisionIdentity : (6 : Nat) ≠ 0 ∧ clmul (divide 64 13 6 true).q 6 ^^^ (divide 64 13 6 true).rem = 13 := by
  decide

/-- V-DIV-13: 13 by 6 is 2 with remainder 1. -/
theorem witness_QuotientAndRemainderAreUnique : (6 : Nat) ≠ 0 ∧ IsDivMod 13 6 2 1 := by decide

theorem witness_ShortDividendIsTheRemainder : bitlen 3 < bitlen 5 ∧ bitlen 0 < bitlen 1 := by decide

theorem witness_DivisionWidthsAreExact : (1 : Nat) ≠ 0 ∧ bitlen 3 ≥ bitlen 1 ∧ ¬ bitlen 0 ≥ bitlen 1 := by decide

theorem witness_DivisionCornerCases : (5 : Nat) ≠ 0 ∧ (7 : Nat) ≠ 0 ∧ bitlen 5 = bitlen 7 := by decide

theorem witness_DivisionTraceCountAndOrder : bitlen 13 ≥ bitlen 6 ∧ bitlen 7 ≥ bitlen 7 ∧ bitlen 3 < bitlen 5 := by decide

/-- V-DIV-13, its first and its last record. -/
theorem witness_DivisionTraceContent :
    13 < 2 ^ 4 ∧ (6 : Nat) ≠ 0 ∧ bitlen 13 ≥ bitlen 6 ∧ 0 + 1 = bitlen 13 - bitlen 6 ∧ 1 + 0 = bitlen 13 - bitlen 6 := by
  decide

/-- V-BLD-07 (N + m = W), and one core for each of the four faults (V-FLT-02, 03, 04 and 05). -/
theorem witness_BuildCompletes :
    (operands 64 0x3FFFFFFFFFFFFFF 0x5B 58).faulted = false ∧
      (operands 64 0x3FFFFFFFFFFFFFF 0x5B 58).crc.buildReady ∧
      ¬ (operands 64 0x88888181 0 32).crc.buildReady ∧ ¬ (operands 64 1 0x5B 65).crc.buildReady ∧
      ¬ (operands 64 0x1F 0x5B 4).crc.buildReady ∧ ¬ (operands 64 0x3FFFFFFFFFFFFFF 0x5B 59).crc.buildReady := by decide

theorem witness_CodewordIsMessageThenFcs :
    (operands 64 0x88888181 0x5B 32).faulted = false ∧
      (operands 64 0x88888181 0x5B 32).crc.buildReady := by decide

theorem witness_CodewordDividesEvenly :
    (operands 1 1 1 1).faulted = false ∧ (operands 1 1 1 1).crc.buildReady := by
  decide

/-- The scenario, with two set bits of 0x5B, and its first and last codeword bit. -/
theorem witness_SingleBitFlipIsDetected :
    (operands 64 0x88888181 0x5B 32).faulted = false ∧
      (operands 64 0x88888181 0x5B 32).crc.buildReady ∧ (0 : Nat) ≠ 6 ∧
      (operands 64 0x88888181 0x5B 32).crc.b.toNat.testBit 0 = true ∧
      (operands 64 0x88888181 0x5B 32).crc.b.toNat.testBit 6 = true ∧
      0 < (operands 64 0x88888181 0x5B 32).crc.n.toNat + degree (operands 64 0x88888181 0x5B 32).crc.b.toNat ∧
      37 < (operands 64 0x88888181 0x5B 32).crc.n.toNat + degree (operands 64 0x88888181 0x5B 32).crc.b.toNat := by
  decide

/-- V-LFSR-11 (the longest run), and one core for each of the three faults (V-FLT-06, 07 and 08). -/
theorem witness_LfsrCompletes :
    (operands 64 0xFFFFFFFFFFFFFFFF 0x8000000000000001 64).faulted = false ∧
      (operands 64 0xFFFFFFFFFFFFFFFF 0x8000000000000001 64).crc.lfsrReady ∧
      ¬ (operands 64 5 0 3).crc.lfsrReady ∧ ¬ (operands 64 1 0x5B 65).crc.lfsrReady ∧
      ¬ (operands 64 0x1F 0x5B 4).crc.lfsrReady := by decide

theorem witness_LfsrRunsTheCycles : (7 : Nat) ≠ 0 ∧ 0 < 3 + degree 7 ∧ 4 < 3 + degree 7 ∧ ¬ 5 < 3 + degree 7 := by decide

theorem witness_LfsrRunIsTheRemainder : (0x107 : Nat) ≠ 0 ∧ bitlen 0xD3 ≤ 8 := by decide

/-- Operands on which both complete, and V-FLT-05, on which BUILD overflows and LFSR completes; at W = 4 here. -/
theorem witness_LfsrFcsEqualsBuildFcs :
    ((operands 64 5 7 3).faulted = false ∧
      (operands 64 5 7 3).crc.buildReady) ∧
    ∃ u v, (operands 4 5 7 3).faulted = false ∧ exec (.build false) (operands 4 5 7 3) = .next u ∧
      exec (.lfsr false) (operands 4 5 7 3) = .next v ∧ u.faulted ≠ v.faulted :=
  ⟨by decide, _, _, by decide, rfl, rfl, by decide⟩

theorem witness_LfsrTraceCountAndOrder : 0 < 3 + degree 7 ∧ 4 < 3 + degree 7 ∧ ¬ 5 < 3 + degree 7 := by decide

/-- The first and the last cycle of V-LFSR-09, and the one cycle of V-LFSR-06. -/
theorem witness_LfsrTraceContent :
    (7 : Nat) ≠ 0 ∧ bitlen 5 ≤ 3 ∧ 0 < 3 + degree 7 ∧ 4 < 3 + degree 7 ∧ (1 : Nat) ≠ 0 ∧ bitlen 1 ≤ 1 ∧
      0 < 1 + degree 1 := by decide

theorem witness_DegreeZeroLfsrLeavesAnEmptyFcs :
    (operands 64 11 1 64).faulted = false ∧
      (operands 64 11 1 64).crc.b.toNat = 1 ∧ (operands 64 11 1 64).crc.lfsrReady := by decide

theorem witness_LeadingZerosKeepTheFcs : (0x5B : Nat) ≠ 0 ∧ bitlen 5 ≤ 3 ∧ bitlen 5 ≤ 8 := by decide

theorem witness_StatusLayoutAndLegalValues :
    ∃ u, (pending (operands 64 5 7 3) 0b01001#5 0).crc.status.legal ∧
      step (pending (operands 64 5 7 3) 0b01001#5 0) = .next u :=
  ⟨_, by decide, rfl⟩

/-- A CMD write, and a RD. -/
theorem witness_DoneIsWrittenByExecutedCommandsOnly :
    ∃ u v, (operands 64 5 7 3).crc.status.legal ∧
      step (pending (operands 64 5 7 3) 0b10011#5 1) = .next u ∧ step (pending (operands 64 5 7 3) 0b01001#5 0) = .next v :=
  ⟨_, _, by decide, rfl, rfl⟩

theorem witness_FaultEntryKeepsTheFirstCause :
    (operands 64 5 0 0).crc.status.fault = false ∧ (faultedOperands 64 5 0 0).crc.status.fault = true := by decide

theorem witness_FaultedCoreIgnoresCommands : (faultedOperands 64 5 7 3).faulted = true := by decide

/-- A core for each clause: faulted, an illegal word, and each of the four operand faults (V-FLT-18, 19, 20, 05). -/
theorem witness_FirstFaultInPriorityOrder :
    (faultedOperands 64 5 7 3).faulted = true ∧ (operands 64 5 7 3).faulted = false ∧
      decodeCommand (BitVec.ofNat 32 0x22) = .error .reservedBits ∧
      decodeCommand (BitVec.ofNat 32 3) = .ok ⟨.build, false⟩ ∧
      (operands 64 (2 ^ 64 - 1) 0 99).crc.b = 0 ∧
      ((operands 64 (2 ^ 64 - 1) 0x5B 99).crc.b ≠ 0 ∧ (operands 64 (2 ^ 64 - 1) 0x5B 99).crc.n.toNat > 64) ∧
      ((operands 64 0x1F (2 ^ 63) 4).crc.n.toNat ≤ 64 ∧
        bitlen (operands 64 0x1F (2 ^ 63) 4).crc.a.toNat > (operands 64 0x1F (2 ^ 63) 4).crc.n.toNat) ∧
      ((operands 64 (2 ^ 58 - 1) 0x5B 59).crc.n.toNat ≤ 64 ∧
        bitlen (operands 64 (2 ^ 58 - 1) 0x5B 59).crc.a.toNat ≤ (operands 64 (2 ^ 58 - 1) 0x5B 59).crc.n.toNat ∧
        (operands 64 (2 ^ 58 - 1) 0x5B 59).crc.n.toNat + degree (operands 64 (2 ^ 58 - 1) 0x5B 59).crc.b.toNat > 64) ∧
      (15 : RegIndex) ≠ 3 ∧ (0 : RegIndex) ≠ 3 := by decide

/-- DIVIDE by 0, and RD of a reserved index. -/
theorem witness_FaultsArePrecise :
    ∃ u v, (operands 64 5 0 0).faulted = false ∧ step (pending (operands 64 5 0 0) 0b10011#5 2) = .next u ∧
      u.faulted = true ∧ step (pending (operands 64 5 0 0) 0b01001#5 0) = .next v ∧ v.faulted = true :=
  ⟨_, _, by decide, rfl, by decide, rfl, by decide⟩

/-- Two events, the first of which a request of the inbox, the second idle. -/
theorem witness_FaultIsStickyUntilReset :
    ∃ u, (pending (faultedOperands 64 5 7 3) 0b10011#5 2).faulted = true ∧
      (∀ e ∈ (pending (faultedOperands 64 5 7 3) 0b10011#5 2).inbox.take 2, e ≠ .reset) ∧
      (faultedOperands 64 5 7 3).crc.status.legal ∧
      runFor 2 (pending (faultedOperands 64 5 7 3) 0b10011#5 2) = .next u :=
  ⟨_, by decide, by decide, by decide, rfl⟩

theorem witness_RdReturnsTheRegister : (9 : RegIndex).toNat ≥ 9 ∧ (15 : RegIndex).toNat ≥ 9 ∧ ¬ (8 : RegIndex).toNat ≥ 9 := by
  decide

theorem witness_WrWritesTheRegisterOrIssues :
    decodeCommand (BitVec.ofNat 32 0xFFFFFFFF00000002) = .ok ⟨.divide, false⟩ ∧
      decodeCommand (BitVec.ofNat 32 5) = .error .reservedOpcode ∧
      (operands 64 5 7 3).faulted = false ∧ (faultedOperands 64 5 7 3).faulted = true ∧
      (4 : RegIndex).toNat ≥ 4 ∧ (15 : RegIndex).toNat ≥ 4 ∧ ¬ (3 : RegIndex).toNat ≥ 4 := by decide

theorem witness_PortTruncatesAndZeroExtends :
    ((0 : RegIndex) = 0 ∧ (operands 8 5 7 3).W = 8) ∧ ((2 : RegIndex) = 2 ∧ (32 : Nat) = 32) ∧
      ((0 : RegIndex).toNat, (operands 8 5 7 3).crc.a.toNat) = (0, 5) ∧
      ((8 : RegIndex).toNat, (operands 8 5 7 3).crc.res1W.toNat) = (8, 0) := by decide

theorem witness_OnlyTheNamedRequestChangesARegister :
    (pending (operands 64 5 7 3) 0b01001#5 0).inbox = [.request 0b01001#5 0#64] ∧ kindField 0b01001#5 = false ∧
      0b01001#5 ≠ 0b10000#5 ∧ 0b01001#5 ≠ 0b10001#5 ∧ 0b01001#5 ≠ 0b10010#5 ∧ 0b01001#5 ≠ 0b10011#5 ∧
      kindField 0b10001#5 = true := by decide

/-- Two cores that agree on A, B and N and differ in their results. -/
theorem witness_ResultsDependOnlyOnWordAndOperands :
    ∃ c d : CrcCore 64, c.a = d.a ∧ c.b = d.b ∧ c.n = d.n ∧ c.status.fault = false ∧ d.status.fault = false ∧ c ≠ d :=
  ⟨(operands 64 5 7 3).crc, { (operands 64 5 7 3).crc with res0 := 1, status := ⟨true, false, 0⟩ }, rfl, rfl, rfl, rfl, rfl,
    fun h => absurd (congrArg CrcCore.res0 h) (by decide)⟩

theorem witness_TraceIsAppendOnly :
    (pending (operands 64 5 7 3) 0b10011#5 0x14).inbox = [.request 0b10011#5 0x14#64] ∧
      ({ operands 64 5 7 3 with inbox := [.reset] } : State).inbox = [.reset] := ⟨rfl, rfl⟩

/-- One traced LFSR. -/
theorem witness_TracingChangesNoRegister :
    ∃ u, runFor 1 (pending (operands 64 5 7 3) 0b10011#5 0x14) = .next u := ⟨_, rfl⟩

end Sys2Proof.Tests
end

section
/-! PROOFS. Bit lengths of shifts, XORs and carry-less products (R15, R101), and O20. -/

namespace Sys2Proof.Machine

/-- Appending a bit makes a value at most one bit longer (R115, R164). -/
theorem bitlen_shiftLeft_or_bit_le {v w : Nat} (b : Bool) (h : bitlen v ≤ w) :
    bitlen ((v <<< 1) ||| b.toNat) ≤ w + 1 := by
  rw [bitlen_le_iff] at h ⊢
  have := b.toNat_le
  rw [shiftLeft_or_bit, Nat.pow_succ]
  omega

/-- A shift to the left makes a value longer by its amount. -/
theorem bitlen_shiftLeft_le {x w : Nat} (s : Nat) (h : bitlen x ≤ w) : bitlen (x <<< s) ≤ w + s := by
  rw [bitlen_le_iff] at h ⊢
  rw [Nat.shiftLeft_eq, Nat.pow_add]
  exact Nat.mul_lt_mul_of_pos_right h (Nat.two_pow_pos s)

/-- The top bits of a number are as many as its length leaves. -/
theorem bitlen_shiftRight_le {x w s : Nat} (h : bitlen x ≤ w + s) : bitlen (x >>> s) ≤ w := by
  rw [bitlen_le_iff] at h ⊢
  rw [Nat.shiftRight_eq_div_pow]
  exact Nat.div_lt_of_lt_mul (by rwa [← Nat.pow_add, Nat.add_comm s])

/-- An XOR is no longer than its operands (R101). -/
theorem bitlen_xor_le {x y w : Nat} (hx : bitlen x ≤ w) (hy : bitlen y ≤ w) : bitlen (x ^^^ y) ≤ w := by
  rw [bitlen_le_iff] at *
  exact Nat.xor_lt_two_pow hx hy

/-- The carry-less product by the low k bits of a factor is no longer than its factors allow. -/
theorem bitlen_clmulBelow_le {a w : Nat} (h : bitlen a ≤ w + 1) (g k : Nat) : bitlen (clmulBelow a g k) ≤ w + k := by
  induction k with
  | zero => simp [clmulBelow]
  | succ k ih =>
    rw [clmulBelow]
    apply bitlen_xor_le (ih.trans (by omega))
    split
    · exact (bitlen_shiftLeft_le k h).trans (by omega)
    · simp

/-- The top bits of two nonzero factors meet in the top bit of their carry-less product, which nothing cancels: degrees
add (R15). -/
theorem bitlen_clmul {a g : Nat} (ha : a ≠ 0) (hg : g ≠ 0) : bitlen (clmul a g) = degree a + degree g + 1 := by
  have hla := bitlen_eq_degree_add_one ha
  have hlg := bitlen_eq_degree_add_one hg
  have hbound := bitlen_clmulBelow_le hla.le g
  have hbit : (clmul a g).testBit (degree a + degree g) = true := by
    have hlow : (clmulBelow a g (degree g)).testBit (degree a + degree g) = false :=
      Nat.testBit_lt_two_pow (bitlen_le_iff.mp (hbound _))
    simp [clmul, hlg, clmulBelow, hlow, testBit_of_bitlen_eq hlg, testBit_of_bitlen_eq hla]
  apply le_antisymm
  · rw [clmul, hlg]
    exact hbound _
  · exact lt_bitlen_iff.mpr (Nat.ge_two_pow_of_testBit hbit)

/-- Settles O20. The two products differ by the carry-less product of q XOR q' and g, and by r XOR r', which is shorter than
g; so q XOR q' is 0. -/
theorem quotientAndRemainderAreUnique : Obligations.QuotientAndRemainderAreUnique := by
  intro a g q r q' r' hg ⟨ha, hr⟩ ⟨ha', hr'⟩
  have hsum : clmul q g ^^^ r = clmul q' g ^^^ r' := ha.symm.trans ha'
  have hprod : clmul (q ^^^ q') g = r ^^^ r' := by
    rw [clmul_xor_left, ← Nat.xor_eq_zero_iff]
    rw [← Nat.xor_eq_zero_iff] at hsum
    rw [← hsum]
    ac_rfl
  have hlg := bitlen_eq_degree_add_one hg
  have hshort : bitlen (r ^^^ r') ≤ degree g := by
    rw [hlg, Nat.lt_succ_iff] at hr hr'
    exact bitlen_xor_le hr hr'
  have hq : q ^^^ q' = 0 := by
    by_contra hne
    have := bitlen_clmul hne hg
    rw [hprod] at this
    omega
  have hr0 : r ^^^ r' = 0 := by rw [← hprod, hq, clmul_zero_left]
  exact ⟨Nat.xor_eq_zero_iff.mp hq, Nat.xor_eq_zero_iff.mp hr0⟩

end Sys2Proof.Machine
end

section
/-! PROOFS. The register map with its values, and what the port returns of them (R21, R54): O47. -/

namespace Sys2Proof.Machine

/-- The value of a register as a number (R21); CMD holds none and reads as 0. -/
def CrcCore.regValue {W : Nat} (c : CrcCore W) : Reg → Nat
  | .A => c.a.toNat
  | .B => c.b.toNat
  | .N => c.n.toNat
  | .CMD => 0
  | .STATUS => c.status.word.toNat
  | .RES0 => c.res0.toNat
  | .RES1 => c.res1.toNat
  | .RES0_W => c.res0W.toNat
  | .RES1_W => c.res1W.toNat

/-- The port is wide enough for every register (R10), so zero-extension loses nothing (R54). -/
@[simp] theorem CrcCore.readReg_toNat {W : Nat} (c : CrcCore W) (r : Reg) : (c.readReg r).toNat = c.regValue r := by
  cases r with
  | A => exact toPort_toNat_datapath c.a
  | B => exact toPort_toNat_datapath c.b
  | N => exact toPort_toNat_word W c.n
  | CMD => rfl
  | STATUS => exact toPort_toNat_word W c.status.word
  | RES0 => exact toPort_toNat_datapath c.res0
  | RES1 => exact toPort_toNat_datapath c.res1
  | RES0_W => exact toPort_toNat_word W c.res0W
  | RES1_W => exact toPort_toNat_word W c.res1W

/-- The register map undoes the numbering of the registers (R21). -/
theorem regAt_of_toNat_eq {idx : RegIndex} {r : Reg} (h : idx.toNat = r.index.toNat) : regAt idx = some r := by
  obtain rfl : idx = r.index := BitVec.eq_of_toNat_eq h
  cases r <;> rfl

/-- The readable part of the register map, as the pairs of an index and a value that O47 lists (R21). -/
theorem regAt_of_mem_regValues {W : Nat} (c : CrcCore W) {idx : RegIndex} {x : Nat}
    (h : (idx.toNat, x) ∈ [(0, c.a.toNat), (1, c.b.toNat), (2, c.n.toNat), (4, c.status.word.toNat), (5, c.res0.toNat),
      (6, c.res1.toNat), (7, c.res0W.toNat), (8, c.res1W.toNat)]) :
    ∃ r, regAt idx = some r ∧ r ≠ .CMD ∧ c.regValue r = x := by
  simp only [List.mem_cons, List.not_mem_nil, or_false, Prod.mk.injEq] at h
  rcases h with ⟨hi, rfl⟩ | ⟨hi, rfl⟩ | ⟨hi, rfl⟩ | ⟨hi, rfl⟩ | ⟨hi, rfl⟩ | ⟨hi, rfl⟩ | ⟨hi, rfl⟩ | ⟨hi, rfl⟩
  · exact ⟨.A, regAt_of_toNat_eq hi, by decide, rfl⟩
  · exact ⟨.B, regAt_of_toNat_eq hi, by decide, rfl⟩
  · exact ⟨.N, regAt_of_toNat_eq hi, by decide, rfl⟩
  · exact ⟨.STATUS, regAt_of_toNat_eq hi, by decide, rfl⟩
  · exact ⟨.RES0, regAt_of_toNat_eq hi, by decide, rfl⟩
  · exact ⟨.RES1, regAt_of_toNat_eq hi, by decide, rfl⟩
  · exact ⟨.RES0_W, regAt_of_toNat_eq hi, by decide, rfl⟩
  · exact ⟨.RES1_W, regAt_of_toNat_eq hi, by decide, rfl⟩

/-- Settles O47: a write leaves the data modulo 2 to the register's width in the register, and the port is wide enough
to return every register whole. -/
theorem portTruncatesAndZeroExtends : Obligations.PortTruncatesAndZeroExtends := by
  rintro ⟨W, c, ret, evs⟩ data
  refine ⟨rfl, ?_, ?_⟩
  · rintro idx w (⟨rfl, rfl⟩ | ⟨rfl, rfl⟩ | ⟨rfl, rfl⟩)
    · exact ⟨_, _, exec_wr_A c ret evs data, exec_rd _ ret evs (r := .A) rfl (by decide),
        (CrcCore.readReg_toNat ..).trans (truncTo_toNat ..)⟩
    · exact ⟨_, _, exec_wr_B c ret evs data, exec_rd _ ret evs (r := .B) rfl (by decide),
        (CrcCore.readReg_toNat ..).trans (truncTo_toNat ..)⟩
    · exact ⟨_, _, exec_wr_N c ret evs data, exec_rd _ ret evs (r := .N) rfl (by decide),
        (CrcCore.readReg_toNat ..).trans (truncTo_toNat ..)⟩
  · intro idx x hx
    obtain ⟨r, hr, hCMD, hval⟩ := regAt_of_mem_regValues c hx
    exact ⟨_, exec_rd c ret evs hr hCMD, (c.readReg_toNat r).trans hval⟩

end Sys2Proof.Machine
end

section
/-! PROOFS. Which trace records are legal (R118, R168). -/

namespace Sys2Proof.Machine

/-- Legality of a list of records (R118, R168). -/
def RecordsLegal {W : Nat} (recs : List (TraceRecord W)) : Prop := ∀ r ∈ recs, r.legal = true

@[simp] theorem recordsLegal_nil {W : Nat} : RecordsLegal ([] : List (TraceRecord W)) := nofun

theorem RecordsLegal.append {W : Nat} {recs recs' : List (TraceRecord W)} (h : RecordsLegal recs)
    (h' : RecordsLegal recs') : RecordsLegal (recs ++ recs') := fun r hr =>
  (List.mem_append.mp hr).elim (h r) (h' r)

theorem RecordsLegal.emit {W : Nat} {recs : List (TraceRecord W)} (t : Bool) {r : TraceRecord W} (h : RecordsLegal recs)
    (hr : r.legal = true) : RecordsLegal (emit t recs r) := by
  cases t with
  | false => exact h
  | true => exact h.append (by simpa [RecordsLegal] using hr)

/-- The ranges and relations of R118. -/
theorem TraceRecord.legal_divStep {W j aux : Nat} {qbit : Bool} {sub after next : BitVec W} :
    (TraceRecord.divStep j aux qbit sub after next).legal = true ↔
      j + aux < W ∧ (qbit = false → sub = 0) ∧ (aux = 0 → next = after) := by
  simp [TraceRecord.legal, and_assoc, or_iff_not_imp_left]

/-- The ranges and relations of R168. -/
theorem TraceRecord.legal_lfsrCycle {W c m : Nat} {phase : Phase} {bit msbOld : Bool} {reg : BitVec m} :
    (TraceRecord.lfsrCycle c phase bit msbOld m reg : TraceRecord W).legal = true ↔
      c + 2 ≤ 2 * W ∧ m < W ∧ (phase = .flush → bit = false) := by
  simp [TraceRecord.legal, and_assoc, or_iff_not_imp_left]

end Sys2Proof.Machine
end

section
/-! PROOFS. The divider: bounds on its values, and legality of its records (R110, R116, R118, R122). -/

namespace Sys2Proof.Machine

/-- An iteration leaves less than the divisor's length: either the top bits cancel, or the value was already shorter
(R114, R116). -/
theorem bitlen_after_lt {G rem : Nat} (hG : G ≠ 0) (h : bitlen rem ≤ bitlen G) :
    bitlen (rem ^^^ subtrahend G (quotientBit G rem)) < bitlen G := by
  by_cases heq : bitlen rem = bitlen G
  · have hrem : rem ≠ 0 := by
      rintro rfl
      exact hG (bitlen_eq_zero.mp heq.symm)
    simpa [subtrahend, quotientBit, heq] using heq ▸ bitlen_xor_lt heq hrem
  · simpa [subtrahend, quotientBit, heq] using lt_of_le_of_ne h heq

/-- Bringing a bit down makes the value at most one bit longer (R115, R116). -/
theorem bitlen_bringDown_le {after r : Nat} (D aux : Nat) (h : bitlen after < r) : bitlen (bringDown D aux after) ≤ r := by
  unfold bringDown
  split
  · obtain ⟨w, rfl⟩ := Nat.exists_eq_add_one_of_ne_zero (Nat.ne_zero_of_lt h)
    exact bitlen_shiftLeft_or_bit_le _ (Nat.lt_succ_iff.mp h)
  · exact h.le

/-- The last iteration brings no bit down (R115). -/
@[simp] theorem bringDown_zero (D after : Nat) : bringDown D 0 after = after := rfl

/-- The remainder of the loop is shorter than the divisor (R116, R122). -/
theorem divLoop_bitlen_rem_lt {W : Nat} (D top : Nat) {G : Nat} (t : Bool) (hG : G ≠ 0) (aux : Nat) (v : DivState W)
    (h : bitlen v.rem ≤ bitlen G) : bitlen (divLoop D G top t aux v).rem < bitlen G := by
  induction aux generalizing v with
  | zero => exact bitlen_after_lt hG h
  | succ aux ih => exact ih _ (bitlen_bringDown_le D (aux + 1) (bitlen_after_lt hG h))

/-- The loop appends aux + 1 bits to the quotient (R117, R122). -/
theorem divLoop_bitlen_qacc_le {W : Nat} (D G top : Nat) (t : Bool) (aux : Nat) (v : DivState W) {w : Nat}
    (h : bitlen v.qacc ≤ w) : bitlen (divLoop D G top t aux v).qacc ≤ w + (aux + 1) := by
  induction aux generalizing v w with
  | zero => exact bitlen_shiftLeft_or_bit_le _ h
  | succ aux ih =>
    have := ih (divIteration D G top t (aux + 1) v) (bitlen_shiftLeft_or_bit_le _ h)
    rw [divLoop_succ]
    omega

/-- The record of an iteration: j + aux is the first index; sub is 0 where the quotient bit is; and the last iteration
brings nothing down (R118). -/
theorem divIteration_recordsLegal {W : Nat} (D G : Nat) {top aux : Nat} (t : Bool) {v : DivState W} (htop : top < W)
    (haux : aux ≤ top) (h : RecordsLegal v.recs) : RecordsLegal (divIteration D G top t aux v).recs := by
  refine h.emit t (TraceRecord.legal_divStep.mpr ⟨by omega, fun hq => ?_, ?_⟩)
  · simp [hq, subtrahend]
  · rintro rfl
    rw [bringDown_zero]

theorem divLoop_recordsLegal {W : Nat} (D G : Nat) {top : Nat} (t : Bool) (htop : top < W) (aux : Nat) (v : DivState W)
    (haux : aux ≤ top) (h : RecordsLegal v.recs) : RecordsLegal (divLoop D G top t aux v).recs := by
  induction aux generalizing v with
  | zero => exact divIteration_recordsLegal D G t htop haux h
  | succ aux ih => exact ih _ (by omega) (divIteration_recordsLegal D G t htop haux h)

/-- The width of a remainder is the degree of the divisor (R110, R122). -/
theorem divide_rw (W D G : Nat) (t : Bool) : (divide W D G t).rw = degree G := by
  rcases Nat.lt_or_ge (bitlen D) (bitlen G) with h | h
  · rw [divide_of_short W t h, degree]
  · rw [divide_of_long W t h, degree]

/-- What `divide` returns, bounded: the quotient has at most qw bits, the remainder at most rw, both widths are at most W,
and the records are legal (R118, R122). -/
theorem divide_bounds {W D G : Nat} (t : Bool) (hG : G ≠ 0) (hD : bitlen D ≤ W) :
    bitlen (divide W D G t).q ≤ (divide W D G t).qw ∧ (divide W D G t).qw ≤ W ∧
      bitlen (divide W D G t).rem ≤ degree G ∧ RecordsLegal (divide W D G t).recs := by
  have hG' : bitlen G ≠ 0 := bitlen_eq_zero.not.mpr hG
  rcases Nat.lt_or_ge (bitlen D) (bitlen G) with hlt | hge
  · rw [divide_of_short W t hlt]
    exact ⟨by simp, Nat.zero_le _, Nat.le_sub_one_of_lt hlt, recordsLegal_nil⟩
  · rw [divide_of_long W t hge]
    have hseed : bitlen (D >>> (bitlen D - bitlen G)) ≤ bitlen G := bitlen_shiftRight_le (by omega)
    have hq := divLoop_bitlen_qacc_le D G (bitlen D - bitlen G) t (bitlen D - bitlen G)
      (⟨D >>> (bitlen D - bitlen G), 0, []⟩ : DivState W) (bitlen_zero.le)
    rw [Nat.zero_add] at hq
    exact ⟨hq, by simp only; omega, Nat.le_sub_one_of_lt (divLoop_bitlen_rem_lt D _ t hG _ _ hseed),
      divLoop_recordsLegal D G t (by omega) _ _ le_rfl recordsLegal_nil⟩

end Sys2Proof.Machine
end

section
/-! PROOFS. The LFSR engine: bounds on its register, and legality of its records (R161, R168). -/

namespace Sys2Proof.Machine

/-- The record of a cycle: its number is below n + m, and a flush cycle takes a 0 (R166, R168). -/
theorem lfsrCycle_recordsLegal {W : Nat} (M : Nat) {n G c : Nat} (t : Bool) {v : LfsrState W} (hm : degree G < W)
    (hc : c + 2 ≤ 2 * W) (h : RecordsLegal v.recs) : RecordsLegal (lfsrCycle M n G t c v).recs := by
  refine h.emit t (TraceRecord.legal_lfsrCycle.mpr ⟨hc, hm, fun hphase => ?_⟩)
  have hcn : ¬ c < n := fun hlt => by simp [phaseOf, hlt] at hphase
  simp [lfsrInput, hcn]

theorem lfsrLoop_recordsLegal {W : Nat} (M : Nat) {n G : Nat} (t : Bool) (hm : degree G < W) (count c : Nat)
    (v : LfsrState W) (hc : c + count + 1 ≤ 2 * W) (h : RecordsLegal v.recs) :
    RecordsLegal (lfsrLoop M n G t count c v).recs := by
  induction count generalizing c v with
  | zero => exact h
  | succ count ih => exact ih _ _ (by omega) (lfsrCycle_recordsLegal M t hm (by omega) h)

/-- The final register of a run has at most m bits (R36, R164). -/
theorem bitlen_lfsrRun_reg_le (W M n G : Nat) (t : Bool) : bitlen (lfsrRun W M n G t).reg ≤ degree G :=
  bitlen_le_iff.mpr (lfsrLoop_reg_lt M n G t _ 0 _ (Nat.two_pow_pos _))

theorem lfsrRun_recordsLegal {W : Nat} (M : Nat) {n G : Nat} (t : Bool) (hm : degree G < W) (hn : n ≤ W) :
    RecordsLegal (lfsrRun W M n G t).recs :=
  lfsrLoop_recordsLegal M t hm _ 0 _ (by omega) recordsLegal_nil

end Sys2Proof.Machine
end

section
/-! PROOFS. What every command that completes produces: results that fit their registers and legal records. -/

namespace Sys2Proof.Machine

/-- Results that a completing command may write: 32-bit widths that cover the values, and legal records (R30). -/
structure Results.Legal {W : Nat} (r : Results W) : Prop where
  covers0 : bitlen r.res0 ≤ r.res0W
  covers1 : bitlen r.res1 ≤ r.res1W
  fits0   : r.res0W < 2 ^ 32
  fits1   : r.res1W < 2 ^ 32
  records : RecordsLegal r.recs

/-- The degree of a polynomial held in B is below W (R9). -/
theorem degree_lt_width {W : Nat} {b : BitVec W} (hb : b ≠ 0) : degree b.toNat < W := by
  have := bitlen_toNat_le b
  have := bitlen_eq_degree_add_one ((toNat_eq_zero_iff b).not.mpr hb)
  omega

/-- The bit length of a value held in A has at most as many bits as W (R102). -/
theorem bitlenResults_legal {W : Nat} (hW : Config.legalWidth W) (c : CrcCore W) : (bitlenResults c).Legal where
  covers0 := bitlen_le_iff.mpr ((bitlen_toNat_le c.a).trans_lt (bitlen_le_iff.mp le_rfl))
  covers1 := bitlen_zero.le
  fits0   := (bitlen_le_self W).trans_lt hW.2
  fits1   := Nat.two_pow_pos 32
  records := recordsLegal_nil

/-- A division whose dividend fits W bits gives legal results (R111, R122). -/
theorem divideResults_legal {W : Nat} (hW : Config.legalWidth W) (t : Bool) {c : CrcCore W} (hb : c.b ≠ 0) :
    (divideResults t c).Legal := by
  obtain ⟨hq, hqw, hrem, hrecs⟩ := divide_bounds t ((toNat_eq_zero_iff _).not.mpr hb) (bitlen_toNat_le c.a)
  have hm := degree_lt_width hb
  exact {
    covers0 := hq
    covers1 := hrem.trans_eq (divide_rw ..).symm
    fits0   := hqw.trans_lt hW.2
    fits1   := ((divide_rw ..).trans_lt hm).trans hW.2
    records := hrecs }

/-- On operands that pass the checks the codeword has at most N + m ≤ W bits (R141, R143). -/
theorem buildResults_legal {W : Nat} (hW : Config.legalWidth W) (t : Bool) {c : CrcCore W} (h : c.buildReady) :
    (buildResults t c).Legal := by
  obtain ⟨hb, -, hA, hN⟩ := h
  have hshift : bitlen (shiftedMessage c.opA c.opB) ≤ c.opN + degree c.opB := bitlen_shiftLeft_le _ hA
  obtain ⟨-, -, hrem, hrecs⟩ := divide_bounds t ((toNat_eq_zero_iff _).not.mpr hb) (hshift.trans hN)
  exact {
    covers0 := bitlen_xor_le hshift (hrem.trans (Nat.le_add_left ..))
    covers1 := hrem
    fits0   := hN.trans_lt hW.2
    fits1   := (degree_lt_width hb).trans hW.2
    records := hrecs }

/-- On operands that pass the checks the register has m < W bits and the run at most 2W - 1 cycles (R161, R168). -/
theorem lfsrResults_legal {W : Nat} (hW : Config.legalWidth W) (t : Bool) {c : CrcCore W} (h : c.lfsrReady) :
    (lfsrResults t c).Legal := by
  obtain ⟨hb, hN, -⟩ := h
  exact {
    covers0 := bitlen_zero.le
    covers1 := bitlen_lfsrRun_reg_le ..
    fits0   := Nat.two_pow_pos 32
    fits1   := (degree_lt_width hb).trans hW.2
    records := lfsrRun_recordsLegal _ t (degree_lt_width hb) hN }

/-- The operands on which DIVIDE passes its check (R123). -/
theorem divideCheck_eq_none {W : Nat} {c : CrcCore W} : divideCheck c = none ↔ c.b ≠ 0 := by
  simp [divideCheck, toNat_eq_zero_iff]

/-- A list of checks passes when its first check and the rest of it pass (R212). -/
theorem check_eq_none_iff {p : Prop} [Decidable p] {f : FaultCause} {rest : Option FaultCause} :
    (if p then some f else rest) = none ↔ ¬ p ∧ rest = none := by
  by_cases hp : p <;> simp [hp]

/-- The operands on which BUILD passes its checks (R141). -/
theorem buildCheck_eq_none {W : Nat} {c : CrcCore W} : buildCheck c = none ↔ c.buildReady := by
  simp [buildCheck, CrcCore.buildReady, check_eq_none_iff, toNat_eq_zero_iff]

/-- The operands on which LFSR passes its checks (R161). -/
theorem lfsrCheck_eq_none {W : Nat} {c : CrcCore W} : lfsrCheck c = none ↔ c.lfsrReady := by
  simp [lfsrCheck, CrcCore.lfsrReady, check_eq_none_iff, toNat_eq_zero_iff]

/-- A command that passes its check produces legal results. -/
theorem resultsOf_legal {W : Nat} (hW : Config.legalWidth W) (k : Command) {c : CrcCore W}
    (h : checkOf k.op c = none) : (resultsOf k c).Legal := by
  obtain ⟨op, t⟩ := k
  cases op with
  | bitlen => exact bitlenResults_legal hW c
  | divide => exact divideResults_legal hW t (divideCheck_eq_none.mp h)
  | build => exact buildResults_legal hW t (buildCheck_eq_none.mp h)
  | lfsr => exact lfsrResults_legal hW t (lfsrCheck_eq_none.mp h)

end Sys2Proof.Machine
end

section
/-! PROOFS. The invariant holds at reset and every step keeps it: O12 and O13. -/

namespace Sys2Proof.Machine

/-- The codes of the six faults are 1 to 6 (R201). -/
theorem FaultCause.code_range (f : FaultCause) : 1 ≤ f.code.toNat ∧ f.code.toNat ≤ 6 := by
  cases f <;> decide

/-- Fault entry leaves a legal STATUS (R209). -/
theorem Status.raise_legal {st : Status} (f : FaultCause) (h : st.legal) : (st.raise f).legal := by
  refine ⟨nofun, fun _ => ?_⟩
  rw [Status.raise_cause]
  split
  · next hf =>
    obtain ⟨hlow, hhigh, -⟩ := h.2 hf
    exact ⟨hlow, hhigh, rfl⟩
  · obtain ⟨hlow, hhigh⟩ := f.code_range
    exact ⟨hlow, hhigh, rfl⟩

/-- Completion of an unfaulted core leaves a legal STATUS (R27). -/
theorem Status.complete_legal {st : Status} (hf : st.fault = false) (h : st.legal) : st.complete.legal :=
  ⟨h.1, fun hf' => absurd (hf.symm.trans hf') nofun⟩

/-- A register that a result is written to holds no more bits than its width register says (R30). -/
theorem widths_cover_of_le {W v w : Nat} (h : bitlen v ≤ w) (hw : w < 2 ^ 32) :
    bitlen (truncTo W v).toNat ≤ (truncTo 32 w).toNat := by
  rw [truncTo_toNat, truncTo_toNat, Nat.mod_eq_of_lt hw, bitlen_le_iff]
  exact (Nat.mod_le ..).trans_lt (bitlen_le_iff.mp h)

/-- The part of the invariant that speaks of the core. -/
structure CrcCore.Inv {W : Nat} (c : CrcCore W) : Prop where
  status : c.status.legal
  covers : c.widthsCover
  trace  : RecordsLegal c.trace

/-- The invariant of the machine is that of its core at a legal width. -/
theorem State.inv_mk {W : Nat} {c : CrcCore W} {ret : List (BitVec (portWidth W))} {evs : List (HostEvent (portWidth W))} :
    State.Inv ⟨W, c, ret, evs⟩ ↔ Config.legalWidth W ∧ c.Inv :=
  ⟨fun ⟨hw, hs, hc, ht⟩ => ⟨hw, hs, hc, ht⟩, fun ⟨hw, hs, hc, ht⟩ => ⟨hw, hs, hc, ht⟩⟩

/-- The reset value of the core (R38). -/
theorem CrcCore.reset_inv (W : Nat) : (CrcCore.reset W).Inv where
  status := ⟨fun _ => rfl, nofun⟩
  covers := by simp [CrcCore.widthsCover]
  trace  := recordsLegal_nil

section
variable {W : Nat} {c : CrcCore W}

/-- The operands A, B and N are no part of the invariant. -/
theorem CrcCore.Inv.withOperands (h : c.Inv) (a b : BitVec W) (n : Word32) :
    { c with a := a, b := b, n := n }.Inv := ⟨h.status, h.covers, h.trace⟩

/-- Fault entry changes STATUS alone (R209). -/
theorem CrcCore.Inv.faultEntry (h : c.Inv) (f : FaultCause) : (c.faultEntry f).Inv :=
  ⟨Status.raise_legal f h.status, h.covers, h.trace⟩

/-- Fault entry behind the FAULT gate, which an illegal command word meets (R206). -/
theorem CrcCore.Inv.gated_faultEntry (h : c.Inv) (f : FaultCause) : (c.gated (CrcCore.faultEntry f)).Inv := by
  unfold CrcCore.gated
  split
  · exact h
  · exact h.faultEntry f

/-- Completion of an unfaulted core with legal results (R27, R30, R190). -/
theorem CrcCore.Inv.complete (h : c.Inv) (hf : c.status.fault = false) {r : Results W} (hr : r.Legal) :
    (c.complete r).Inv where
  status := Status.complete_legal hf h.status
  covers := ⟨widths_cover_of_le hr.covers0 hr.fits0, widths_cover_of_le hr.covers1 hr.fits1⟩
  trace  := h.trace.append hr.records

/-- A command is ignored, faults, or completes with legal results. -/
theorem commandCore_inv (hW : Config.legalWidth W) (h : c.Inv) (k : Command) : (commandCore k c).Inv := by
  rcases commandCore_cases k c with ⟨-, he⟩ | ⟨-, f, -, he⟩ | ⟨hf, hcheck, he⟩
  all_goals rw [he]
  · exact h
  · exact h.faultEntry f
  · exact h.complete hf (resultsOf_legal hW k hcheck)

/-- Every port request keeps the invariant, by what it can do to the core. -/
theorem exec_request_inv (hW : Config.legalWidth W) (h : c.Inv) (hd : PortHeader) (data : BitVec (portWidth W))
    (ret : List (BitVec (portWidth W))) (evs : List (HostEvent (portWidth W))) {u : State}
    (hu : exec (decodeRequest hd data) ⟨W, c, ret, evs⟩ = .next u) : u.Inv := by
  rcases exec_request_cases hd data c ret evs with ⟨v, c', he, -, hc⟩ | ⟨c', he, -, hc⟩
  all_goals
    cases hu.symm.trans he
    refine State.inv_mk.mpr ⟨hW, ?_⟩
  · rcases hc with rfl | ⟨-, rfl⟩
    · exact h
    · exact h.faultEntry _
  · rcases hc with ⟨-, rfl⟩ | ⟨-, rfl⟩ | ⟨-, rfl⟩ | ⟨-, k, -, rfl⟩ | ⟨-, -, rfl⟩ | ⟨-, rfl⟩
    · exact h.withOperands ..
    · exact h.withOperands ..
    · exact h.withOperands ..
    · exact commandCore_inv hW h k
    · exact h.gated_faultEntry _
    · exact h.faultEntry _

end

/-- Settles O13, by the event the step takes. -/
theorem everyStepKeepsTheInvariant : Obligations.EveryStepKeepsTheInvariant := by
  rintro ⟨W, c, ret, evs⟩ u hinv hu
  obtain ⟨hW, hc⟩ := State.inv_mk.mp hinv
  cases evs with
  | nil =>
    cases hu
    exact hinv
  | cons e rest =>
    cases e with
    | reset =>
      cases hu
      exact State.inv_mk.mpr ⟨hW, CrcCore.reset_inv W⟩
    | request hd data =>
      rw [step_request] at hu
      exact exec_request_inv hW hc hd data ret rest hu

/-- Settles O12, by the reset value of the core. -/
theorem invariantHoldsAtReset : Obligations.InvariantHoldsAtReset := by
  have hreset : ∀ W, Config.legalWidth W → (State.resetAt W).Inv := fun W hW =>
    State.inv_mk.mpr ⟨hW, CrcCore.reset_inv W⟩
  exact ⟨hreset Config.referenceWidth (by decide), hreset⟩

end Sys2Proof.Machine
end

section
/-! PROOFS. All a port request can do to the core, with the header that does it (R22 to R25, R29, R57): O48. -/

namespace Sys2Proof.Machine

/-- What a port request with the given header may leave of the core `c`. -/
inductive RequestEffect {W : Nat} (c : CrcCore W) : PortHeader → CrcCore W → Prop where
  /-- A RD changes no register (R57). -/
  | read {hd : PortHeader} (hk : kindField hd = false) : RequestEffect c hd c
  /-- An access the register map does not allow; a WR of CMD is none (R207). -/
  | badAccess {hd : PortHeader} (hne : hd ≠ 0b10011#5) : RequestEffect c hd (c.faultEntry .badAccess)
  /-- A WR of A (R182). -/
  | writeA (data : Nat) : RequestEffect c 0b10000#5 (c.writeA data)
  /-- A WR of B (R182). -/
  | writeB (data : Nat) : RequestEffect c 0b10001#5 (c.writeB data)
  /-- A WR of N (R182). -/
  | writeN (data : Nat) : RequestEffect c 0b10010#5 (c.writeN data)
  /-- A CMD write that meets the FAULT gate (R28). -/
  | ignored (hf : c.status.fault = true) : RequestEffect c 0b10011#5 c
  /-- A CMD write that raises a fault (R209). -/
  | faulted (hf : c.status.fault = false) (f : FaultCause) : RequestEffect c 0b10011#5 (c.faultEntry f)
  /-- A CMD write whose command completes (R27, R29). -/
  | completed (hf : c.status.fault = false) (r : Results W) : RequestEffect c 0b10011#5 (c.complete r)

section
variable {W : Nat} {c c' : CrcCore W} {hd : PortHeader}

/-- A command is a CMD write. -/
theorem RequestEffect.command (k : Command) : RequestEffect c 0b10011#5 (commandCore k c) := by
  rcases commandCore_cases k c with ⟨hf, he⟩ | ⟨hf, f, -, he⟩ | ⟨hf, -, he⟩
  all_goals rw [he]
  · exact .ignored hf
  · exact .faulted hf f
  · exact .completed hf _

/-- A word that is no command is a CMD write that raises IllegalCommand behind the gate (R206). -/
theorem RequestEffect.illegalCommand :
    RequestEffect c 0b10011#5 (c.gated (CrcCore.faultEntry .illegalCommand)) := by
  cases hf : c.status.fault with
  | true => exact (CrcCore.gated_of_fault _ hf).symm ▸ .ignored hf
  | false => exact (CrcCore.gated_of_not_fault _ hf).symm ▸ .faulted hf _

/-- A step takes the first pending request and executes it (R56). -/
theorem step_of_inbox (s : State) {data : BitVec (portWidth s.W)} {rest : List (HostEvent (portWidth s.W))}
    (hin : s.inbox = .request hd data :: rest) : step s = exec (decodeRequest hd data) (s.withInbox rest) := by
  simp [step, hin]

/-- A port request has an effect of its header on the core; a WR returns no value and a RD one (R57, R187). -/
theorem exec_request_effect (hd : PortHeader) (data : BitVec (portWidth W)) (c : CrcCore W)
    (ret : List (BitVec (portWidth W))) (evs : List (HostEvent (portWidth W))) :
    ∃ c' ret', exec (decodeRequest hd data) ⟨W, c, ret, evs⟩ = .next ⟨W, c', ret', evs⟩ ∧ RequestEffect c hd c' ∧
      (kindField hd = true → ret' = ret) ∧ (kindField hd = false → ∃ v, ret' = ret ++ [v]) := by
  rcases exec_request_cases hd data c ret evs with ⟨v, c', he, hk, hc⟩ | ⟨c', he, hk, hc⟩
  · refine ⟨c', _, he, ?_, fun hk' => absurd (hk.symm.trans hk') nofun, fun _ => ⟨v, rfl⟩⟩
    rcases hc with rfl | ⟨-, rfl⟩
    · exact .read hk
    · exact .badAccess (by rintro rfl; cases hk)
  · refine ⟨c', _, he, ?_, fun _ => rfl, fun hk' => absurd (hk.symm.trans hk') nofun⟩
    rcases hc with ⟨rfl, rfl⟩ | ⟨rfl, rfl⟩ | ⟨rfl, rfl⟩ | ⟨rfl, k, -, rfl⟩ | ⟨rfl, -, rfl⟩ | ⟨hge, rfl⟩
    · exact .writeA _
    · exact .writeB _
    · exact .writeN _
    · exact .command k
    · exact .illegalCommand
    · exact .badAccess (by rintro rfl; exact absurd hge (by decide))

/-- A step that takes a port request has an effect of its header on the core, and takes the request (R56). -/
theorem step_request_effect (s : State) (hd : PortHeader) (data : BitVec (portWidth s.W))
    (rest : List (HostEvent (portWidth s.W))) (hin : s.inbox = .request hd data :: rest) :
    ∃ c' ret', step s = .next { s with crc := c', returned := ret', inbox := rest } ∧ RequestEffect s.crc hd c' ∧
      (kindField hd = true → ret' = s.returned) ∧ (kindField hd = false → ∃ v, ret' = s.returned ++ [v]) := by
  rw [step_of_inbox s hin]
  exact exec_request_effect hd data s.crc s.returned rest

/-- A request keeps the legal values of STATUS (R26). -/
theorem RequestEffect.status_legal (h : RequestEffect c hd c') (hc : c.status.legal) : c'.status.legal := by
  cases h with
  | read | writeA | writeB | writeN | ignored => exact hc
  | badAccess => exact Status.raise_legal _ hc
  | faulted _ f => exact Status.raise_legal f hc
  | completed hf => exact Status.complete_legal hf hc

/-- A legal STATUS with FAULT = 1 has DONE = 0, so DONE is what it was unless a fault has cleared it (R26, R27). -/
theorem Status.done_of_legal {st : Status} (h : st.legal) : st.done = if st.fault then false else st.done := by
  split
  · next hf => exact (h.2 hf).2.2
  · rfl

/-- DONE after a request (R27). -/
theorem RequestEffect.done_eq (h : RequestEffect c hd c') (hc : c.status.legal) :
    c'.status.done =
      (if hd = 0b10011#5 ∧ c.status.fault = false then ! c'.status.fault
       else if c'.status.fault then false else c.status.done) := by
  have hkept : ¬ (hd = 0b10011#5 ∧ c.status.fault = false) → c.status.done =
      (if hd = 0b10011#5 ∧ c.status.fault = false then ! c.status.fault
       else if c.status.fault then false else c.status.done) := fun hno =>
    (Status.done_of_legal hc).trans (if_neg hno).symm
  cases h with
  | read hk => exact hkept (by rintro ⟨rfl, -⟩; cases hk)
  | badAccess hne => simp [hne]
  | writeA | writeB | writeN => exact hkept (by simp)
  | ignored hf => exact hkept (by simp [hf])
  | faulted hf => simp [hf]
  | completed hf => simp [hf]

/-- A, B and N change only by a WR of that register (R22, R23). -/
theorem RequestEffect.operands_frame (h : RequestEffect c hd c') :
    (hd ≠ 0b10000#5 → c'.a = c.a) ∧ (hd ≠ 0b10001#5 → c'.b = c.b) ∧ (hd ≠ 0b10010#5 → c'.n = c.n) := by
  cases h with
  | writeA => exact ⟨fun hne => absurd rfl hne, fun _ => rfl, fun _ => rfl⟩
  | writeB => exact ⟨fun _ => rfl, fun hne => absurd rfl hne, fun _ => rfl⟩
  | writeN => exact ⟨fun _ => rfl, fun _ => rfl, fun hne => absurd rfl hne⟩
  | read | badAccess | ignored | faulted | completed => exact ⟨fun _ => rfl, fun _ => rfl, fun _ => rfl⟩

/-- The result registers and the trace stream change only by a CMD write (R24, R29). -/
theorem RequestEffect.results_frame (h : RequestEffect c hd c') (hne : hd ≠ 0b10011#5) :
    c'.res0 = c.res0 ∧ c'.res1 = c.res1 ∧ c'.res0W = c.res0W ∧ c'.res1W = c.res1W ∧ c'.trace = c.trace := by
  cases h with
  | ignored | faulted | completed => exact absurd rfl hne
  | read | badAccess | writeA | writeB | writeN => exact ⟨rfl, rfl, rfl, rfl, rfl⟩

end

/-- Settles O48, by the effect of the request on the core. -/
theorem onlyTheNamedRequestChangesARegister : Obligations.OnlyTheNamedRequestChangesARegister := by
  intro s hd data rest hin
  obtain ⟨c', ret', he, heff, hwr, hrd⟩ := step_request_effect s hd data rest hin
  obtain ⟨ha, hb, hn⟩ := heff.operands_frame
  exact ⟨c', ret', he, ha, hb, hn, heff.results_frame, hwr, hrd⟩

end Sys2Proof.Machine
end

section
/-! PROOFS. STATUS: its bits, its legal values, its reset value, and who writes DONE (R26, R27, R38): O11,
O38 and O39. -/

namespace Sys2Proof.Machine

/-- The bits of STATUS as a read returns them (R26). Beyond bit 7 the CAUSE field has no bits, so they are 0. -/
theorem Status.word_getLsbD (st : Status) (i : Nat) :
    st.word.getLsbD i =
      if i = 0 then st.done else if i = 1 then st.fault else if i < 4 then false else st.cause.getLsbD (i - 4) := by
  have hword : st.word.getLsbD i = ((0 : BitVec 24) ++ st.cause ++ (0 : BitVec 2) ++ BitVec.ofBool st.fault ++
      BitVec.ofBool st.done).getLsbD i := rfl
  rw [hword, BitVec.getLsbD_append, BitVec.getLsbD_append, BitVec.getLsbD_append, BitVec.getLsbD_append]
  match i with
  | 0 | 1 | 2 | 3 => simp
  | i + 4 =>
    have hge : ¬ i + 4 < 4 := by omega
    simpa [hge] using BitVec.lt_of_getLsbD

/-- Settles O11, by the reset value of each field. -/
theorem resetLeavesEverythingZero : Obligations.ResetLeavesEverythingZero := by
  have hregisters : ∀ W, (State.resetAt W).registers = [0, 0, 0, 0, 0, 0, 0, 0] := fun W => by
    simp [State.registers, Status.word]
  exact ⟨fun W => ⟨hregisters W, rfl, rfl⟩, hregisters Config.referenceWidth, rfl⟩

/-- Every step keeps the legal values of STATUS (R26), by the event it takes. -/
theorem step_status_legal {s u : State} (hc : s.crc.status.legal) (hu : step s = .next u) : u.crc.status.legal := by
  obtain ⟨W, c, ret, evs⟩ := s
  cases evs with
  | nil =>
    cases hu
    exact hc
  | cons e rest =>
    cases e with
    | reset =>
      cases hu
      exact (CrcCore.reset_inv W).status
    | request hd data =>
      obtain ⟨c', ret', he, heff, -⟩ := exec_request_effect hd data c ret rest
      cases hu.symm.trans he
      exact heff.status_legal hc

/-- Settles O38: the layout bit by bit, and the legal values from reset on. -/
theorem statusLayoutAndLegalValues : Obligations.StatusLayoutAndLegalValues := by
  refine ⟨fun st => ?_, by decide, (CrcCore.reset_inv _).status, ?_⟩
  · simp only [Status.word_getLsbD]
    refine ⟨rfl, rfl, fun i _ => ?_, rfl, rfl, fun i hi => ?_⟩
    · rw [if_neg (by omega), if_neg (by omega), if_neg (by omega), Nat.add_sub_cancel_left]
    · rw [if_neg (by omega), if_neg (by omega), if_neg (by omega), BitVec.getLsbD_of_ge _ _ (by omega)]
  · exact fun s u => step_status_legal

/-- Settles O39, by the effect of the request on the core. -/
theorem doneIsWrittenByExecutedCommandsOnly : Obligations.DoneIsWrittenByExecutedCommandsOnly := by
  intro s u hd data rest hc hin hu
  obtain ⟨c', ret', he, heff, -⟩ := step_request_effect s hd data rest hin
  cases hu.symm.trans he
  exact heff.done_eq hc

end Sys2Proof.Machine
end

section
/-! PROOFS. Commands: the word that names one (R25, R183), the FAULT gate before it (R28), and the operands it reads (R34):
O7, O41 and O49. -/

namespace Sys2Proof.Machine

section
variable {W : Nat} {c d : CrcCore W}

/-- The check of a command reads A, B and N only (R34). -/
theorem checkOf_eq_of_operands (op : Op) (ha : c.a = d.a) (hb : c.b = d.b) (hn : c.n = d.n) :
    checkOf op c = checkOf op d := by
  cases op with
  | bitlen => rfl
  | divide => simp [checkOf, divideCheck, hb]
  | build => simp [checkOf, buildCheck, ha, hb, hn]
  | lfsr => simp [checkOf, lfsrCheck, ha, hb, hn]

/-- The results of a command are computed from A, B and N only (R34). -/
theorem resultsOf_eq_of_operands (k : Command) (ha : c.a = d.a) (hb : c.b = d.b) (hn : c.n = d.n) :
    resultsOf k c = resultsOf k d := by
  obtain ⟨op, t⟩ := k
  cases op with
  | bitlen => simp [resultsOf, bitlenResults, ha]
  | divide => simp [resultsOf, divideResults, ha, hb]
  | build => simp [resultsOf, buildResults, ha, hb, hn]
  | lfsr => simp [resultsOf, lfsrResults, ha, hb, hn]

/-- A command of an unfaulted core whose check fails enters the fault that the check names (R203). -/
theorem commandCore_of_check_some {k : Command} {f : FaultCause} (hf : c.status.fault = false)
    (h : checkOf k.op c = some f) : commandCore k c = c.faultEntry f := by
  simp [commandCore, hf, CrcCore.perform, h]

/-- A command of an unfaulted core that passes its check completes (R203). -/
theorem commandCore_of_check_none {k : Command} (hf : c.status.fault = false) (h : checkOf k.op c = none) :
    commandCore k c = c.complete (resultsOf k c) := by
  simp [commandCore, hf, CrcCore.perform, h]

/-- While FAULT is 1 a command is ignored (R28). -/
theorem commandCore_of_fault (k : Command) (hf : c.status.fault = true) : commandCore k c = c :=
  CrcCore.gated_of_fault _ hf

end

/-- A command word decodes to the instruction of the command it spells (R73). -/
theorem decode_command_eq_ok {P : Nat} {w : Word32} {i : Instr} (h : decode (P := P) (.command w) = .ok i) :
    ∃ k, decodeCommand w = .ok k ∧ i = k.toInstr := by
  cases hk : decodeCommand w with
  | error e => simp [decode, hk, Except.map] at h
  | ok k => exact ⟨k, rfl, by simpa [decode, hk, Except.map] using h.symm⟩

/-- Settles O7: the word that CMD takes is the low 32 data bits, so it is the command word `w`. -/
theorem stepRunsTheCommandWrittenToCmd : Obligations.StepRunsTheCommandWrittenToCmd := by
  intro s data rest w i hin hw hi
  obtain ⟨k, hk, rfl⟩ := decode_command_eq_ok hi
  have htrunc : truncTo 32 data.toNat = w := BitVec.eq_of_toNat_eq ((truncTo_toNat ..).trans hw.symm)
  rw [step_of_inbox s hin]
  exact execIssue_of_command (htrunc ▸ hk) _

/-- Settles O41: every command stands behind the FAULT gate, and so does IllegalCommand. -/
theorem faultedCoreIgnoresCommands : Obligations.FaultedCoreIgnoresCommands := by
  rintro ⟨W, c, ret, evs⟩ hf
  have hcommand : ∀ k : Command, exec k.toInstr ⟨W, c, ret, evs⟩ = .next ⟨W, c, ret, evs⟩ := fun k => by
    rw [exec_command_mk, commandCore_of_fault k hf]
  refine ⟨hcommand, fun data => ?_⟩
  rw [exec_wr_CMD]
  cases hk : decodeCommand (truncTo 32 data) with
  | ok k => exact (execIssue_of_command hk _).trans (hcommand k)
  | error e => rw [execIssue_of_illegal hk, State.mapCore_mk, CrcCore.gated_of_fault _ hf]

/-- Settles O49: both cores meet the same check and compute the same results. -/
theorem resultsDependOnlyOnWordAndOperands : Obligations.ResultsDependOnlyOnWordAndOperands := by
  intro k s c d ha hb hn hc hd
  have hcheck := checkOf_eq_of_operands k.op ha hb hn
  have hresults := resultsOf_eq_of_operands k ha hb hn
  cases hk : checkOf k.op d with
  | some f =>
    refine ⟨_, _, [], exec_command_mk k c s.returned s.inbox, exec_command_mk k d s.returned s.inbox, ?_⟩
    rw [commandCore_of_check_some hc (hcheck.trans hk), commandCore_of_check_some hd hk]
    simp [hc, hd]
  | none =>
    refine ⟨_, _, (resultsOf k d).recs, exec_command_mk k c s.returned s.inbox, exec_command_mk k d s.returned s.inbox, ?_⟩
    rw [commandCore_of_check_none hc (hcheck.trans hk), commandCore_of_check_none hd hk, hresults]
    simp [hc, hd]

end Sys2Proof.Machine
end

section
/-! PROOFS. A step that takes a port request runs the instruction it decodes to (R56, R77): O6. -/

namespace Sys2Proof.Machine

/-- Every port request decodes, to one instruction (R77). -/
theorem decode_request_eq_ok_iff {P : Nat} {h : PortHeader} {data : BitVec P} {i : Instr} :
    decode (.request h data) = .ok i ↔ decodeRequest h data = i := by
  simp [decode]

/-- Settles O6: the decoder reads from the request the instruction that the step executes. -/
theorem stepRunsTheDecodedRequest : Obligations.StepRunsTheDecodedRequest := by
  intro s h data rest i hin hdec
  obtain rfl := decode_request_eq_ok_iff.mp hdec
  exact step_of_inbox s hin

end Sys2Proof.Machine
end

section
/-! PROOFS. The decoder and the encoder are inverse to each other, on command words (R70 to R74) and on port requests (R76,
R77): O1, O3, O4 and O5. -/

namespace Sys2Proof.Machine

/-- A command word is its three fields (R70). -/
theorem commandWord_eq_fields (c : Word32) :
    reservedField c ++ BitVec.ofBool (traceField c) ++ opField c = c := by
  ext i hi
  simp only [reservedField, traceField, opField, BitVec.getElem_append, BitVec.getElem_extractLsb']
  split
  · simp [BitVec.getLsbD_eq_getElem hi]
  · next h4 =>
    split
    · obtain rfl : i = 4 := by omega
      simp
    · rw [show 5 + (i - 4 - 1) = i by omega, BitVec.getLsbD_eq_getElem hi]

/-- The OP value of an operation is the only one that names it (R71). -/
theorem opOfField_eq_some_iff {f : BitVec 4} {op : Op} : opOfField f = some op ↔ f = opCode op := by
  cases op <;> revert f <;> decide

/-- What the command decoder accepts has no reserved bit, an operation in OP, and its trace bit in T (R72 to R74). -/
theorem fields_of_decodeCommand {c : Word32} {k : Command} (h : decodeCommand c = .ok k) :
    reservedField c = 0 ∧ opField c = opCode k.op ∧ traceField c = k.trace := by
  unfold decodeCommand at h
  split at h
  · cases h
  · next hr =>
    split at h
    · next op ho =>
      cases h
      exact ⟨not_not.mp hr, opOfField_eq_some_iff.mp ho, rfl⟩
    · cases h

/-- The command words are the encodings of commands, each decoding to its command (R73). -/
theorem decodeCommand_eq_ok_iff {c : Word32} {k : Command} : decodeCommand c = .ok k ↔ c = encodeCommand k := by
  constructor
  · intro h
    obtain ⟨hr, ho, ht⟩ := fields_of_decodeCommand h
    rw [← commandWord_eq_fields c, hr, ho, ht]
    rfl
  · rintro rfl
    obtain ⟨op, t⟩ := k
    cases op <;> cases t <;> rfl

/-- An instruction that stands for a command is encoded as the command's word (R70). -/
@[simp] theorem encode_toInstr (P : Nat) (k : Command) : encode P k.toInstr = .command (encodeCommand k) := by
  obtain ⟨op, t⟩ := k
  cases op <;> rfl

/-- A command instruction is what its word decodes to (R70, R73). -/
theorem decode_encode_toInstr (P : Nat) (k : Command) : decode (encode P k.toInstr) = .ok k.toInstr := by
  rw [encode_toInstr, decode, decodeCommand_eq_ok_iff.mpr rfl, Except.map]

/-- A header is its two fields (R76). -/
theorem encodeHeader_fields (h : PortHeader) : encodeHeader (kindField h) (indexField h) = h := by
  revert h
  decide

@[simp] theorem kindField_encodeHeader (write : Bool) (idx : RegIndex) : kindField (encodeHeader write idx) = write := by
  cases write <;> revert idx <;> decide

@[simp] theorem indexField_encodeHeader (write : Bool) (idx : RegIndex) : indexField (encodeHeader write idx) = idx := by
  cases write <;> revert idx <;> decide

/-- The number a header spells: K above IDX (R76). -/
theorem header_toNat (h : PortHeader) : h.toNat = 16 * (kindField h).toNat + (indexField h).toNat := by
  revert h
  decide

section
variable {P : Nat} {h : PortHeader}

/-- A header with K = 0 is a RD (R76). -/
theorem decodeRequest_of_read (hk : kindField h = false) (data : BitVec P) :
    decodeRequest h data = .rd (indexField h) := by
  simp [decodeRequest, hk]

/-- A header with K = 1 is a WR (R76). -/
theorem decodeRequest_of_write (hk : kindField h = true) (data : BitVec P) :
    decodeRequest h data = .wr (indexField h) data.toNat := by
  simp [decodeRequest, hk]

end

/-- Settles O3: a command by its word, a RD and a WR by the fields of the header, and the data of a well-formed WR loses
nothing in the port's data field. -/
theorem decodeOfEncodeIsTheInstruction : Obligations.DecodeOfEncodeIsTheInstruction := by
  intro W i hi
  cases i with
  | bitlen t => exact decode_encode_toInstr _ ⟨.bitlen, t⟩
  | divide t => exact decode_encode_toInstr _ ⟨.divide, t⟩
  | build t => exact decode_encode_toInstr _ ⟨.build, t⟩
  | lfsr t => exact decode_encode_toInstr _ ⟨.lfsr, t⟩
  | rd idx =>
    rw [encode, decode_request_eq_ok_iff, decodeRequest_of_read (by simp), indexField_encodeHeader]
  | wr idx data =>
    have hdata : data < 2 ^ portWidth W := of_decide_eq_true hi
    rw [encode, decode_request_eq_ok_iff, decodeRequest_of_write (by simp), indexField_encodeHeader,
      BitVec.toNat_ofNat, Nat.mod_eq_of_lt hdata]

/-- Settles O4: a command word that decodes is the encoding of its command, and a header is its fields. -/
theorem encodeOfDecodeIsTheWord : Obligations.EncodeOfDecodeIsTheWord := by
  refine fun P => ⟨fun c i hi => ?_, fun h data hk => ?_, fun h data hk => ?_⟩
  · obtain ⟨k, hk, rfl⟩ := decode_command_eq_ok hi
    rw [encode_toInstr, decodeCommand_eq_ok_iff.mp hk]
  · rw [decodeRequest_of_write hk, encode, ← hk, encodeHeader_fields, BitVec.ofNat_toNat, BitVec.setWidth_eq]
  · rw [decodeRequest_of_read hk, encode, ← hk, encodeHeader_fields]

/-- Settles O1, by evaluating the decoder on each word. -/
theorem wordsDecodeToTheirInstructions : Obligations.WordsDecodeToTheirInstructions := by
  unfold Obligations.WordsDecodeToTheirInstructions
  decide

/-- Settles O5: the index is the field IDX, and K tells RD from WR. -/
theorem everyHeaderIsRdOrWr : Obligations.EveryHeaderIsRdOrWr := by
  intro P h data
  refine ⟨indexField h, ?_⟩
  rw [decode_request_eq_ok_iff, decode_request_eq_ok_iff, header_toNat]
  cases hk : kindField h with
  | false => exact .inl ⟨by simp, decodeRequest_of_read hk data⟩
  | true => exact .inr ⟨by simp, decodeRequest_of_write hk data⟩

end Sys2Proof.Machine
end

section
/-! PROOFS. The legal command words, and the fault of every other word written to CMD (R73, R206): O2. -/

namespace Sys2Proof.Machine

/-- Fault entry of an unfaulted core makes the cause the fault's code (R209). -/
theorem CrcCore.faultEntry_of_not_fault {W : Nat} {c : CrcCore W} (f : FaultCause) (hf : c.status.fault = false) :
    c.faultEntry f = { c with status := ⟨false, true, f.code⟩ } := by
  simp [CrcCore.faultEntry, Status.raise, hf]

/-- A word that is no command, written to CMD of an unfaulted core, raises IllegalCommand (R206). -/
theorem faultsWith_illegalCommand {w : Word32} {e : DecodeRefusal} (he : decodeCommand w = .error e) {s : State}
    (hs : s.faulted = false) : FaultsWith (.wr 3 w.toNat) s .illegalCommand := by
  have hw : truncTo 32 w.toNat = w := by simp [truncTo]
  rw [FaultsWith, exec_wr_CMD, hw, execIssue_of_illegal he, State.mapCore, CrcCore.gated_of_not_fault _ hs,
    CrcCore.faultEntry_of_not_fault _ hs]

/-- Settles O2: the table lists the encoding of each command, and nothing else. -/
theorem exactlyEightWordsAreCommands : Obligations.ExactlyEightWordsAreCommands := by
  refine ⟨fun c k => decodeCommand_eq_ok_iff.trans ⟨?_, fun hmem => ?_⟩, fun c s hno hs => ?_⟩
  · rintro rfl
    obtain ⟨op, t⟩ := k
    cases op <;> cases t <;> decide
  · exact (by decide : ∀ p ∈ _, p.1 = encodeCommand p.2) (c, k) hmem
  · cases hc : decodeCommand c with
    | ok k => exact absurd hc (hno k)
    | error e => exact faultsWith_illegalCommand hc hs

end Sys2Proof.Machine
end

section
/-! PROOFS. Every event has a next state of the same width (R77, R200, R209, R222): O9. -/

namespace Sys2Proof.Machine

/-- Settles O9, by the event that the step takes. -/
theorem everyStepHasANextState : Obligations.EveryStepHasANextState := by
  rintro ⟨W, c, ret, evs⟩
  cases evs with
  | nil => exact ⟨_, step_idle c ret, rfl⟩
  | cons e rest =>
    cases e with
    | reset => exact ⟨_, step_reset c ret rest, rfl⟩
    | request hd data =>
      obtain ⟨c', ret', he, -⟩ := exec_request_effect hd data c ret rest
      exact ⟨_, he, rfl⟩

end Sys2Proof.Machine
end

section
/-! PROOFS. A word of the opcode table, placed among the pending events, runs as the instruction it decodes to: O8. -/

namespace Sys2Proof.Machine

/-- A header without data decodes alike on ports of every width (R76). -/
theorem decodeRequest_zero (P P' : Nat) (h : PortHeader) :
    decodeRequest h (0 : BitVec P) = decodeRequest h (0 : BitVec P') := by
  simp [decodeRequest]

/-- What a table word decodes to does not depend on the width of the port it is placed on. -/
theorem decodeTableWord_eq_bind (P nbits w : Nat) :
    decodeTableWord nbits w = (tableEncoding P nbits w).bind fun e => (decode e).toOption := by
  unfold decodeTableWord tableEncoding
  by_cases hn : nbits ≤ 8
  · by_cases hw : w < 32
    · simp only [if_pos hn, if_pos hw, Option.bind_some, decode, decodeRequest_zero (portWidth Config.referenceWidth) P]
    · simp only [if_pos hn, if_neg hw, Option.bind_none]
  · by_cases hw : w < 2 ^ 32
    · simp only [if_neg hn, if_pos hw, Option.bind_some, decode]
    · simp only [if_neg hn, if_neg hw, Option.bind_none]

/-- The table's decoding keeps what the decoder accepts. -/
theorem decode_eq_ok_of_toOption {P : Nat} {e : Encoding P} {i : Instr} (h : (decode e).toOption = some i) :
    decode e = .ok i := by
  cases hd : decode e with
  | ok j => simpa [hd, Except.toOption] using h
  | error r => simp [hd, Except.toOption] at h

/-- A step runs the instruction that the encoding placed first decodes to (R56, R183). -/
theorem step_eventOf (s : State) {e : Encoding (portWidth s.W)} {i : Instr} (hi : decode e = .ok i)
    (rest : List (HostEvent (portWidth s.W))) :
    step (s.withInbox (eventOf e :: rest)) = exec i (s.withInbox rest) := by
  cases e with
  | command c =>
    have hP : c.toNat < 2 ^ portWidth s.W := c.isLt.trans_le (Nat.pow_le_pow_right (by decide) (le_max_right ..))
    refine stepRunsTheCommandWrittenToCmd (s.withInbox (_ :: rest)) (BitVec.ofNat _ c.toNat) rest c i rfl ?_ hi
    rw [BitVec.toNat_ofNat, Nat.mod_eq_of_lt hP, Nat.mod_eq_of_lt c.isLt]
  | request h data => exact stepRunsTheDecodedRequest (s.withInbox (_ :: rest)) h data rest i rfl hi

/-- Settles O8: the word's encoding is the event that the step takes. -/
theorem placedTableWordIsTheNextInstruction : Obligations.PlacedTableWordIsTheNextInstruction := by
  intro s nbits w i h
  rw [decodeTableWord_eq_bind (portWidth s.W)] at h
  obtain ⟨e, he, hi⟩ := Option.bind_eq_some_iff.mp h
  rw [State.withFetchWord, he]
  exact step_eventOf s (decode_eq_ok_of_toOption hi) s.inbox

end Sys2Proof.Machine
end

section
/-! PROOFS. The bit length: its definition by the bits (R100) and its bounds (R101): O14 and O15. -/

namespace Sys2Proof.Machine

/-- No bit from the bit length on is set (R100). -/
theorem testBit_of_bitlen_le {x j : Nat} (h : bitlen x ≤ j) : x.testBit j = false :=
  Nat.testBit_lt_two_pow (bitlen_le_iff.mp h)

/-- Settles O14: the highest set bit is at the degree (R9). -/
theorem bitlenIsTheHighestSetBitPlusOne : Obligations.BitlenIsTheHighestSetBitPlusOne := by
  refine ⟨bitlen_zero, fun x hx => ?_⟩
  have hdeg : bitlen x = degree x + 1 := bitlen_eq_degree_add_one hx
  exact ⟨degree x, hdeg, testBit_of_bitlen_eq hdeg, fun j hj => testBit_of_bitlen_le (hdeg.trans_le hj)⟩

/-- A positive value is at least the power of two of its degree (R101). -/
theorem two_pow_bitlen_sub_one_le {x : Nat} (hx : x ≠ 0) : 2 ^ (bitlen x - 1) ≤ x :=
  lt_bitlen_iff.mp (Nat.sub_one_lt (bitlen_eq_zero.not.mpr hx))

/-- Appending a bit to a positive value makes it one bit longer (R101). -/
theorem bitlen_shiftLeft_or_bit {x : Nat} (b : Bool) (hx : x ≠ 0) :
    bitlen ((x <<< 1) ||| b.toNat) = bitlen x + 1 := by
  have hbit : (x <<< 1) ||| b.toNat = Nat.bit b x := (shiftLeft_or_bit x b).trans (Nat.bit_val b x).symm
  rw [hbit, bitlen_eq_size, bitlen_eq_size]
  exact Nat.size_bit (Nat.bit_ne_zero b hx)

/-- Settles O15, each bound by the powers of two that the bit length stands between. -/
theorem bitlenBounds : Obligations.BitlenBounds := by
  refine ⟨fun W x => bitlen_le_iff.mpr, fun x => bitlen_le_iff.mp le_rfl,
    fun x hx => two_pow_bitlen_sub_one_le hx.ne', fun x y => bitlen_xor_le (le_max_left ..) (le_max_right ..), ?_, ?_⟩
  · rintro x y r rfl hy hr
    exact Nat.le_sub_one_of_lt (bitlen_xor_lt hy.symm (bitlen_eq_zero.not.mp hr.ne'))
  · intro x b hx hb
    rcases Nat.le_one_iff_eq_zero_or_eq_one.mp (Nat.le_of_lt_succ hb) with rfl | rfl
    · exact bitlen_shiftLeft_or_bit false hx.ne'
    · exact bitlen_shiftLeft_or_bit true hx.ne'

end Sys2Proof.Machine
end

section
/-! PROOFS. How a command completes (R27, R29, R190), and BITLEN (R102, R103): O16. -/

namespace Sys2Proof.Machine

/-- A register holds every number of its range, so a width register every width that 32 bits hold (R10). -/
theorem truncTo_toNat_of_lt {w v : Nat} (h : v < 2 ^ w) : (truncTo w v).toNat = v :=
  truncTo_toNat_of_bitlen_le (bitlen_le_iff.mpr h)

/-- A command of an unfaulted core that passes its check completes with its results, when these fit in W bits
(R27, R29, R190). -/
theorem completesWith_of_check_none (k : Command) {s : State} (hs : s.faulted = false)
    (hcheck : checkOf k.op s.crc = none) (h0 : bitlen (resultsOf k s.crc).res0 ≤ s.W)
    (h1 : bitlen (resultsOf k s.crc).res1 ≤ s.W) :
    CompletesWith k.toInstr s (resultsOf k s.crc).res0 (resultsOf k s.crc).res0W (resultsOf k s.crc).res1
      (resultsOf k s.crc).res1W (resultsOf k s.crc).recs := by
  refine ⟨s.crc.complete (resultsOf k s.crc), ?_, truncTo_toNat_of_bitlen_le h0, truncTo_toNat_of_lt,
    truncTo_toNat_of_bitlen_le h1, truncTo_toNat_of_lt, rfl⟩
  rw [exec_command, State.mapCore, commandCore_of_check_none hs hcheck]

/-- Settles O16: BITLEN has no check to fail, and a bit length of A fits in W bits. -/
theorem bitlenCompletes : Obligations.BitlenCompletes := by
  refine ⟨decodeCommand_eq_ok_iff.mpr rfl, decodeCommand_eq_ok_iff.mpr rfl, fun t s hs => ?_⟩
  have hfits : bitlen (bitlen s.crc.a.toNat) ≤ s.W := (bitlen_le_self _).trans (bitlen_toNat_le s.crc.a)
  exact completesWith_of_check_none ⟨.bitlen, t⟩ hs rfl hfits (Nat.zero_le _)

end Sys2Proof.Machine
end

section
/-! PROOFS. The length of a quotient over GF(2), from the division identity (R15, R122). -/

namespace Sys2Proof.Machine

@[simp] theorem bitlen_one : bitlen 1 = 1 := rfl

@[simp] theorem clmul_one_right (a : Nat) : clmul a 1 = a := by simp [clmul, clmulBelow]

/-- A shorter value leaves the top bit of a longer one alone. -/
theorem bitlen_xor_of_lt {x y : Nat} (h : bitlen y < bitlen x) : bitlen (x ^^^ y) = bitlen x := by
  apply le_antisymm (bitlen_xor_le le_rfl h.le)
  by_contra hlt
  have hx := bitlen_xor_le (Nat.le_sub_one_of_lt (not_le.mp hlt)) (Nat.le_sub_one_of_lt h)
  rw [Nat.xor_xor_cancel_right] at hx
  omega

/-- The quotient has one bit for each position at which the divisor fits under the dividend (R122). -/
theorem IsDivMod.bitlen_quotient {a g q r : Nat} (h : IsDivMod a g q r) (hg : g ≠ 0) (hle : bitlen g ≤ bitlen a) :
    bitlen q = bitlen a - bitlen g + 1 := by
  obtain ⟨ha, hr⟩ := h
  have hprod : clmul q g = a ^^^ r := by rw [ha, Nat.xor_xor_cancel_right]
  have hlen : bitlen (clmul q g) = bitlen a := hprod ▸ bitlen_xor_of_lt (hr.trans_le hle)
  have hq : q ≠ 0 := by
    rintro rfl
    rw [clmul_zero_left, bitlen_zero] at hlen
    omega
  have := bitlen_clmul hq hg
  have := bitlen_eq_degree_add_one hq
  have := bitlen_eq_degree_add_one hg
  omega

end Sys2Proof.Machine
end

section
/-! PROOFS. The divider's values before each iteration (R35, R110), the records it emits (R118, R119), and that tracing
changes no value (R72): O18 and O24. -/

namespace Sys2Proof.Machine

/-- The value after the subtraction of an iteration that begins with `v` (R114). -/
def DivState.after {W : Nat} (G : Nat) (v : DivState W) : Nat := v.rem ^^^ subtrahend G (quotientBit G v.rem)

/-- The record of iteration j, with index aux, that begins with `v` (R118). -/
def DivState.record {W : Nat} (D G j aux : Nat) (v : DivState W) : TraceRecord W :=
  .divStep j aux (quotientBit G v.rem) (truncTo W (subtrahend G (quotientBit G v.rem))) (truncTo W (v.after G))
    (truncTo W (bringDown D aux (v.after G)))

/-- The divider's values before iteration j (R110): the seed, and each iteration after it. -/
def divBefore (W D G top : Nat) (t : Bool) : Nat → DivState W
  | 0 => { rem := D >>> top, qacc := 0, recs := [] }
  | j + 1 => divIteration D G top t (top - j) (divBefore W D G top t j)

section
variable {W D G top j aux : Nat} {t : Bool}

theorem divBefore_succ_rem (h : j + aux = top) :
    (divBefore W D G top t (j + 1)).rem = bringDown D aux ((divBefore W D G top t j).after G) := by
  obtain rfl : aux = top - j := by omega
  rfl

theorem divBefore_succ_qacc (W D G top : Nat) (t : Bool) (j : Nat) :
    (divBefore W D G top t (j + 1)).qacc =
      ((divBefore W D G top t j).qacc <<< 1) ||| (quotientBit G (divBefore W D G top t j).rem).toNat := rfl

/-- With the trace bit set, the iterations so far have emitted one record each, in their order (R119). -/
theorem divBefore_recs_traced (h : j ≤ top + 1) :
    (divBefore W D G top true j).recs =
      (List.range j).map fun i => (divBefore W D G top true i).record D G i (top - i) := by
  induction j with
  | zero => rfl
  | succ j ih =>
    have hj : top - (top - j) = j := by omega
    rw [List.range_succ, List.map_append, ← ih (by omega), List.map_singleton, divBefore, divIteration, hj]
    rfl

theorem divBefore_recs_untraced (W D G top j : Nat) : (divBefore W D G top false j).recs = [] := by
  induction j with
  | zero => rfl
  | succ j ih => exact ih

/-- What is left of the loop at iteration j ends with the values after the last iteration. -/
theorem divLoop_divBefore (h : j + aux = top) :
    divLoop D G top t aux (divBefore W D G top t j) = divBefore W D G top t (top + 1) := by
  induction aux generalizing j with
  | zero =>
    obtain rfl : j = top := h
    rw [divLoop_zero, divBefore, Nat.sub_self]
  | succ aux ih =>
    have haux : top - j = aux + 1 := by omega
    rw [← ih (j := j + 1) (by omega), divLoop_succ, divBefore, haux]

/-- A division that is not cut short returns the values after iteration k - r (R110). -/
theorem divide_eq_divBefore (h : bitlen G ≤ bitlen D) (htop : bitlen D - bitlen G = top) :
    divide W D G t =
      { q := (divBefore W D G top t (top + 1)).qacc, qw := top + 1, rem := (divBefore W D G top t (top + 1)).rem,
        rw := bitlen G - 1, recs := (divBefore W D G top t (top + 1)).recs } := by
  rw [divide_of_long W t h, htop, ← divLoop_divBefore (Nat.zero_add top)]
  rfl

/-- The records of a traced division that is not cut short. -/
theorem divide_recs_traced (h : bitlen G ≤ bitlen D) (htop : bitlen D - bitlen G = top) :
    (divide W D G true).recs =
      (List.range (top + 1)).map fun i => (divBefore W D G top true i).record D G i (top - i) := by
  rw [divide_eq_divBefore h htop, divBefore_recs_traced le_rfl]

/-- Record j of a traced division is that of iteration j (R119). -/
theorem divide_getElem?_recs_traced (h : bitlen G ≤ bitlen D) (hj : j + aux = bitlen D - bitlen G) :
    (divide W D G true).recs[j]? =
      some ((divBefore W D G (bitlen D - bitlen G) true j).record D G j aux) := by
  have haux : bitlen D - bitlen G - j = aux := by omega
  rw [divide_recs_traced h rfl, List.getElem?_map, List.getElem?_range (by omega), Option.map_some, haux]

theorem divide_recs_untraced (W D G : Nat) : (divide W D G false).recs = [] := by
  rcases Nat.lt_or_ge (bitlen D) (bitlen G) with h | h
  · rw [divide_of_short W false h]
  · rw [divide_eq_divBefore h rfl, divBefore_recs_untraced]

end

/-- Tracing changes no returned value (R72). -/
theorem divide_values_eq (W D G : Nat) (t t' : Bool) :
    (divide W D G t).q = (divide W D G t').q ∧ (divide W D G t).qw = (divide W D G t').qw ∧
      (divide W D G t).rem = (divide W D G t').rem ∧ (divide W D G t).rw = (divide W D G t').rw := by
  rcases Nat.lt_or_ge (bitlen D) (bitlen G) with h | h
  · simp [divide_of_short W _ h]
  · obtain ⟨hrem, hq⟩ := divLoop_values_eq (W := W) D G (bitlen D - bitlen G) t t' (bitlen D - bitlen G)
      ⟨D >>> (bitlen D - bitlen G), 0, []⟩ ⟨D >>> (bitlen D - bitlen G), 0, []⟩ rfl rfl
    rw [divide_of_long W t h, divide_of_long W t' h]
    exact ⟨hq, rfl, hrem, rfl⟩

/-- Settles O18: REM and QACC are the values before each iteration of the traced division, and the untraced one has the
same. -/
theorem dividerRunsTheLoop : Obligations.DividerRunsTheLoop := by
  refine ⟨fun W D G t => divide_of_short W t, fun W D G _ hDG => ?_⟩
  refine ⟨fun j => (divBefore W D G (bitlen D - bitlen G) true j).rem,
    fun j => (divBefore W D G (bitlen D - bitlen G) true j).qacc, rfl, rfl, fun j aux hj => ?_, ?_, fun t => ?_⟩
  · refine ⟨_, _, _, rfl, rfl, rfl, divBefore_succ_qacc .., divBefore_succ_rem hj, ?_⟩
    beta_reduce
    rw [divBefore_succ_rem hj]
    exact divide_getElem?_recs_traced hDG hj
  · simp [divide_recs_traced hDG rfl]
  · obtain ⟨hq, hqw, hrem, hrw⟩ := divide_values_eq W D G t true
    rw [hq, hqw, hrem, hrw, divide_eq_divBefore hDG rfl]
    refine ⟨rfl, rfl, rfl, rfl, ?_⟩
    rintro rfl
    exact divide_recs_untraced W D G

/-- Settles O24: record j stands at index aux = k - r - j. -/
theorem divisionTraceCountAndOrder : Obligations.DivisionTraceCountAndOrder := by
  intro W D G
  refine ⟨fun h => ?_, fun h => by rw [divide_of_short W true h], divide_recs_untraced W D G,
    divide_values_eq W D G true false⟩
  rw [divide_recs_traced h rfl, List.map_map, List.range_eq_range', List.reverse_range']
  simp [Function.comp_def, DivState.record, TraceRecord.position, List.range_eq_range']

end Sys2Proof.Machine
end

section
/-! PROOFS. The division identity at every iteration (R15, R120): after an iteration the values are the quotient and the
remainder of the dividend bits consumed so far. O19, O22, O23 and O25. -/

namespace Sys2Proof.Machine

/-- The invariant of the loop before the iteration with index aux: QACC and some r are the quotient and the remainder of
the dividend bits above aux, and bit aux has been brought down behind r (R115). -/
def BroughtDown {W : Nat} (D G aux : Nat) (v : DivState W) : Prop :=
  ∃ r, IsDivMod (D >>> (aux + 1)) G v.qacc r ∧ v.rem = 2 * r + (D.testBit aux).toNat

/-- The bits of D from aux on are those above it, with bit aux behind them. -/
theorem shiftRight_eq_two_mul_add_testBit (D aux : Nat) :
    D >>> aux = 2 * (D >>> (aux + 1)) + (D.testBit aux).toNat := by
  rw [Nat.toNat_testBit, Nat.shiftRight_succ, ← Nat.shiftRight_eq_div_pow]
  omega

/-- Bringing down, as arithmetic (R115). -/
theorem bringDown_eq (D aux after : Nat) :
    bringDown D aux after = if aux > 0 then 2 * after + (D.testBit (aux - 1)).toNat else after := by
  rw [bringDown, bitNat, shiftLeft_or_bit]

section
variable {W D G top j aux : Nat} {t : Bool} {v : DivState W}

/-- Nothing is longer than the divisor when an iteration begins (R116). -/
theorem BroughtDown.bitlen_rem_le (h : BroughtDown D G aux v) : bitlen v.rem ≤ bitlen G := by
  obtain ⟨r, ⟨-, hr⟩, hrem⟩ := h
  have := bitlen_shiftLeft_or_bit_le (D.testBit aux) (Nat.le_sub_one_of_lt hr)
  rw [hrem, ← shiftLeft_or_bit]
  omega

/-- An iteration divides the bits from aux on (R120). -/
theorem BroughtDown.isDivMod (hG : G ≠ 0) (h : BroughtDown D G aux v) :
    IsDivMod (D >>> aux) G ((v.qacc <<< 1) ||| (quotientBit G v.rem).toNat) (v.after G) := by
  have hlen := bitlen_after_lt hG h.bitlen_rem_le
  obtain ⟨r, ⟨ha, -⟩, hrem⟩ := h
  refine ⟨?_, hlen⟩
  rw [shiftRight_eq_two_mul_add_testBit, divMod_step ha _ (quotientBit G v.rem), shiftLeft_or_bit, DivState.after,
    subtrahend, hrem]

/-- An iteration that is not the last keeps the invariant for the next index (R115). -/
theorem BroughtDown.iteration (hG : G ≠ 0) (h : BroughtDown D G (aux + 1) v) :
    BroughtDown D G aux (divIteration D G top t (aux + 1) v) :=
  ⟨v.after G, h.isDivMod hG, bringDown_eq D (aux + 1) (v.after G)⟩

/-- The invariant holds before every iteration of a division (R113 for the seed). -/
theorem divBefore_broughtDown (hG : G ≠ 0) (htop : bitlen D ≤ bitlen G + top) (h : j + aux = top) :
    BroughtDown D G aux (divBefore W D G top t j) := by
  induction j generalizing aux with
  | zero =>
    obtain rfl : aux = top := by omega
    have hlen : bitlen (D >>> (aux + 1)) ≤ bitlen G - 1 := bitlen_shiftRight_le (by omega)
    have hG' : bitlen G ≠ 0 := bitlen_eq_zero.not.mpr hG
    refine ⟨D >>> (aux + 1), ⟨?_, by omega⟩, shiftRight_eq_two_mul_add_testBit D aux⟩
    rw [divBefore, clmul_zero_left, Nat.zero_xor]
  | succ j ih =>
    have haux : top - j = aux + 1 := by omega
    rw [divBefore, haux]
    exact (ih (by omega)).iteration hG

/-- The value that later quotient bits are appended to stays on top of them (R117). -/
theorem divBefore_qacc_shiftRight (W D G top : Nat) (t : Bool) (j i : Nat) :
    (divBefore W D G top t (j + i)).qacc >>> i = (divBefore W D G top t j).qacc := by
  induction i with
  | zero => rfl
  | succ i ih =>
    rw [← ih, ← Nat.add_assoc, divBefore_succ_qacc, shiftLeft_or_bit, Nat.add_comm i 1, Nat.shiftRight_add,
      Nat.shiftRight_one, Nat.mul_add_div two_pos, Nat.div_eq_of_lt (Bool.toNat_lt _), Nat.add_zero]

/-- The quotient bits formed up to iteration j are the top ones of the quotient (R117). -/
theorem divide_q_shiftRight (hDG : bitlen G ≤ bitlen D) (h : j + aux = bitlen D - bitlen G) :
    (divide W D G t).q >>> aux = (divBefore W D G (bitlen D - bitlen G) t (j + 1)).qacc := by
  have hlast : bitlen D - bitlen G + 1 = j + 1 + aux := by omega
  rw [divide_eq_divBefore hDG rfl, hlast, divBefore_qacc_shiftRight]

/-- The quotient bit of an iteration is the bit of the quotient at its index (R117). -/
theorem testBit_divide_q (hDG : bitlen G ≤ bitlen D) (h : j + aux = bitlen D - bitlen G) :
    (divide W D G t).q.testBit aux = quotientBit G (divBefore W D G (bitlen D - bitlen G) t j).rem := by
  have hbit : (divide W D G t).q.testBit aux = ((divide W D G t).q >>> aux).testBit 0 := by
    rw [Nat.testBit_shiftRight, Nat.add_zero]
  rw [hbit, divide_q_shiftRight hDG h, divBefore_succ_qacc, shiftLeft_or_bit]
  cases quotientBit G (divBefore W D G (bitlen D - bitlen G) t j).rem <;> simp

/-- Iteration j of a division that is not cut short divides the dividend bits consumed so far (R120). -/
theorem divBefore_isDivMod (hG : G ≠ 0) (hDG : bitlen G ≤ bitlen D) (h : j + aux = bitlen D - bitlen G) :
    IsDivMod (D >>> aux) G ((divide W D G t).q >>> aux)
      ((divBefore W D G (bitlen D - bitlen G) t j).after G) := by
  rw [divide_q_shiftRight hDG h, divBefore_succ_qacc]
  exact (divBefore_broughtDown hG (by omega) h).isDivMod hG

end

/-- What `divide` returns are the quotient and the remainder of D by G (R120). -/
theorem divide_isDivMod {G : Nat} (W D : Nat) (t : Bool) (hG : G ≠ 0) :
    IsDivMod D G (divide W D G t).q (divide W D G t).rem := by
  rcases Nat.lt_or_ge (bitlen D) (bitlen G) with h | h
  · rw [divide_of_short W t h]
    exact ⟨by simp, h⟩
  · have hlast := divBefore_isDivMod (W := W) (t := t) hG h (Nat.add_zero _)
    have hrem : (divide W D G t).rem = (divBefore W D G (bitlen D - bitlen G) t (bitlen D - bitlen G)).after G := by
      rw [divide_eq_divBefore h rfl]
      exact divBefore_succ_rem (Nat.add_zero _)
    rwa [← hrem] at hlast

/-- The quotient and the remainder that `divide` returns are any that satisfy the division identity (R15, R121). -/
theorem divide_eq_of_isDivMod {D G q r : Nat} (W : Nat) (t : Bool) (hG : G ≠ 0) (h : IsDivMod D G q r) :
    (divide W D G t).q = q ∧ (divide W D G t).rem = r :=
  quotientAndRemainderAreUnique D G _ _ q r hG (divide_isDivMod W D t hG) h

/-- The width of a quotient (R110, R122). -/
theorem divide_qw (W D G : Nat) (t : Bool) :
    (divide W D G t).qw = if bitlen D ≥ bitlen G then bitlen D - bitlen G + 1 else 0 := by
  rcases Nat.lt_or_ge (bitlen D) (bitlen G) with h | h
  · rw [divide_of_short W t h, if_neg (not_le.mpr h)]
  · rw [divide_of_long W t h, if_pos h]

/-- Settles O19. -/
theorem divisionIdentity : Obligations.DivisionIdentity := by
  intro W D G t hG
  obtain ⟨hD, hrem⟩ := divide_isDivMod W D t hG
  exact ⟨hD.symm, hrem⟩

/-- Settles O22: the division identity fixes the length of the quotient. -/
theorem divisionWidthsAreExact : Obligations.DivisionWidthsAreExact := by
  intro W D G t hG
  have hdiv := divide_isDivMod W D t hG
  refine ⟨divide_qw W D G t, ?_, divide_rw W D G t, (divide_rw W D G t).ge.trans' (Nat.le_sub_one_of_lt hdiv.2)⟩
  rcases Nat.lt_or_ge (bitlen D) (bitlen G) with h | h
  · rw [divide_of_short W t h, bitlen_zero]
  · rw [divide_qw, if_pos h, hdiv.bitlen_quotient hG h]

/-- Settles O21, by the short circuit. -/
theorem shortDividendIsTheRemainder : Obligations.ShortDividendIsTheRemainder := by
  intro W D G t h
  rw [divide_of_short W t h]
  exact ⟨rfl, rfl, rfl, rfl, Nat.le_sub_one_of_lt h, rfl⟩

/-- Settles O23: in each case the claimed quotient and remainder satisfy the division identity. -/
theorem divisionCornerCases : Obligations.DivisionCornerCases := by
  intro W t
  refine ⟨fun D => ?_, fun G hG => ?_, fun D G hG h => ?_⟩
  · obtain ⟨hq, hrem⟩ := divide_eq_of_isDivMod W t one_ne_zero (show IsDivMod D 1 D 0 from ⟨by simp, Nat.one_pos⟩)
    have hqw : (divide W D 1 t).qw = bitlen D := by
      rw [divide_qw, bitlen_one]
      split <;> omega
    exact ⟨hq, hqw, hrem, divide_rw W D 1 t⟩
  · have hlen : bitlen G ≠ 0 := bitlen_eq_zero.not.mpr hG
    obtain ⟨hq, hrem⟩ := divide_eq_of_isDivMod W t hG (show IsDivMod G G 1 0 from ⟨by simp, Nat.pos_of_ne_zero hlen⟩)
    exact ⟨hq, by simp [divide_qw], hrem⟩
  · have hshort : bitlen (D ^^^ G) < bitlen G := by
      rw [Nat.xor_comm]
      exact bitlen_xor_lt h.symm hG
    exact divide_eq_of_isDivMod W t hG ⟨by rw [clmul_one_left, Nat.xor_comm D, Nat.xor_xor_cancel_left], hshort⟩

/-- The values of a record are no longer than the divisor, so W-bit fields hold them whole (R116, R118). -/
theorem DivState.record_fields_toNat {W G : Nat} {v : DivState W} (D aux : Nat) (hGW : bitlen G ≤ W)
    (h : bitlen (v.after G) < bitlen G) :
    (truncTo W (subtrahend G (quotientBit G v.rem))).toNat = subtrahend G (quotientBit G v.rem) ∧
      (truncTo W (v.after G)).toNat = v.after G ∧
      (truncTo W (bringDown D aux (v.after G))).toNat = bringDown D aux (v.after G) := by
  have hsub : bitlen (subtrahend G (quotientBit G v.rem)) ≤ W := by
    unfold subtrahend
    split
    · exact hGW
    · exact Nat.zero_le W
  exact ⟨truncTo_toNat_of_bitlen_le hsub, truncTo_toNat_of_bitlen_le (h.le.trans hGW),
    truncTo_toNat_of_bitlen_le ((bitlen_bringDown_le D aux h).trans hGW)⟩

/-- Settles O25: an iteration divides the dividend bits consumed so far, and its record holds its values whole. -/
theorem divisionTraceContent : Obligations.DivisionTraceContent := by
  intro W D G j aux hD hG hDG hj
  have hdiv := divBefore_isDivMod (W := W) (t := true) hG hDG hj
  obtain ⟨hsub, hafter, hnext⟩ := DivState.record_fields_toNat D aux (hDG.trans (bitlen_le_iff.mpr hD)) hdiv.2
  refine ⟨_, _, _, _, divide_getElem?_recs_traced hDG hj, (testBit_divide_q hDG hj).symm, hsub, ?_, ?_, ?_⟩
  · rwa [hafter]
  · rw [hafter, hnext, bringDown_eq]
  · rw [hnext]
    exact bitlen_bringDown_le D aux hdiv.2

end Sys2Proof.Machine
end

section
/-! PROOFS. DIVIDE completes, or raises DivisorZero (R111, R123, R208): O17. -/

namespace Sys2Proof.Machine

/-- A command of an unfaulted core whose check fails answers the fault that the check names (R203, R209). -/
theorem faultsWith_of_check_some (k : Command) {s : State} {f : FaultCause} (hs : s.faulted = false)
    (hcheck : checkOf k.op s.crc = some f) : FaultsWith k.toInstr s f := by
  rw [FaultsWith, exec_command, State.mapCore, commandCore_of_check_some hs hcheck,
    CrcCore.faultEntry_of_not_fault f hs]

/-- Settles O17: on a divisor other than 0 the quotient and the remainder fit in W bits. -/
theorem divideCompletes : Obligations.DivideCompletes := by
  refine ⟨decodeCommand_eq_ok_iff.mpr rfl, decodeCommand_eq_ok_iff.mpr rfl, fun t s hs hb => ?_, fun t s hs hb => ?_⟩
  · obtain ⟨hq, hqw, hrem, -⟩ :=
      divide_bounds t ((toNat_eq_zero_iff s.crc.b).not.mpr hb) (bitlen_toNat_le s.crc.a)
    exact completesWith_of_check_none ⟨.divide, t⟩ hs (divideCheck_eq_none.mpr hb) (hq.trans hqw)
      (hrem.trans (degree_lt_width hb).le)
  · exact faultsWith_of_check_some ⟨.divide, t⟩ hs (by simp [checkOf, divideCheck, hb])

end Sys2Proof.Machine
end

section
/-! PROOFS. BUILD completes with the codeword and the FCS, or raises the first failing check (R141): O26. -/

namespace Sys2Proof.Machine

/-- On operands that pass its checks the values BUILD produces fit the widths it gives for them (R141, R143). -/
theorem buildResults_bitlen_le {W : Nat} (t : Bool) {c : CrcCore W} (h : c.buildReady) :
    bitlen (buildResults t c).res0 ≤ c.n.toNat + degree c.b.toNat ∧ bitlen (buildResults t c).res1 ≤ degree c.b.toNat := by
  obtain ⟨hb, -, hA, hN⟩ := h
  have hshift : bitlen (shiftedMessage c.a.toNat c.b.toNat) ≤ c.n.toNat + degree c.b.toNat := bitlen_shiftLeft_le _ hA
  obtain ⟨-, -, hrem, -⟩ := divide_bounds t ((toNat_eq_zero_iff _).not.mpr hb) (hshift.trans hN)
  exact ⟨bitlen_xor_le hshift (hrem.trans (Nat.le_add_left ..)), hrem⟩

/-- On other operands the check names the first fault that applies (R141, R212). -/
theorem buildCheck_eq_some {W : Nat} {c : CrcCore W} (h : ¬ c.buildReady) :
    buildCheck c = some
      (if c.b = 0 then .divisorZero
       else if c.n.toNat > W then .widthRange
       else if bitlen c.a.toNat > c.n.toNat then .widthTruncation
       else .overflow) := by
  have hne := buildCheck_eq_none.not.mpr h
  simp only [buildCheck, CrcCore.opB_eq, CrcCore.opN_eq, CrcCore.opA_eq, toNat_eq_zero_iff] at hne ⊢
  split_ifs at hne ⊢
  · rfl
  · rfl
  · rfl
  · rfl
  · exact absurd rfl hne

/-- Settles O26: the codeword has at most N + m ≤ W bits, so RES0 and RES1 hold the results whole. -/
theorem buildCompletes : Obligations.BuildCompletes := by
  refine ⟨decodeCommand_eq_ok_iff.mpr rfl, decodeCommand_eq_ok_iff.mpr rfl, fun t s hs h => ?_, fun t s hs h => ?_⟩
  · obtain ⟨h0, h1⟩ := buildResults_bitlen_le t h
    have hN : s.crc.n.toNat + degree s.crc.b.toNat ≤ s.W := h.2.2.2
    exact completesWith_of_check_none ⟨.build, t⟩ hs (buildCheck_eq_none.mpr h) (h0.trans hN)
      (h1.trans ((Nat.le_add_left ..).trans hN))
  · exact faultsWith_of_check_some ⟨.build, t⟩ hs (buildCheck_eq_some h)

end Sys2Proof.Machine
end

section
/-! PROOFS. The codeword as a number: the message above the FCS (R142 to R144), and a multiple of the polynomial (R145,
R146): O27 and O28. -/

namespace Sys2Proof.Machine

/-- A shifted message with a remainder of at most m bits XORed in is the message above the remainder (R142, R144). -/
theorem shiftLeft_xor_fields {M r m : Nat} (h : bitlen r ≤ m) :
    ((M <<< m) ^^^ r) >>> m = M ∧ ((M <<< m) ^^^ r) % 2 ^ m = r := by
  have hr := bitlen_le_iff.mp h
  constructor
  · rw [Nat.shiftRight_xor_distrib, Nat.shiftLeft_shiftRight, Nat.shiftRight_eq_div_pow, Nat.div_eq_of_lt hr, Nat.xor_zero]
  · rw [Nat.xor_mod_two_pow, Nat.shiftLeft_eq, Nat.mul_mod_left, Nat.zero_xor, Nat.mod_eq_of_lt hr]

/-- What a BUILD whose checks pass leaves (R141): a core with the same polynomial and no fault, the remainder of the shifted
message in RES1, and the shifted message with that remainder XORed in as the codeword. -/
theorem exec_build_completes (t : Bool) {s : State} (hs : s.faulted = false) (h : s.crc.buildReady) :
    ∃ (c : CrcCore s.W) (q : Nat), exec (.build t) s = .next { s with crc := c } ∧ c.b = s.crc.b ∧
      c.status.fault = false ∧ c.res0.toNat = (s.crc.a.toNat <<< degree s.crc.b.toNat) ^^^ c.res1.toNat ∧
      IsDivMod (s.crc.a.toNat <<< degree s.crc.b.toNat) s.crc.b.toNat q c.res1.toNat := by
  obtain ⟨c, he, h0, -, h1, -, hc⟩ := buildCompletes.2.2.1 t s hs h
  have hdiv := divide_isDivMod s.W (s.crc.a.toNat <<< degree s.crc.b.toNat) t ((toNat_eq_zero_iff _).not.mpr h.1)
  rw [← h1] at h0 hdiv
  refine ⟨c, _, he, by rw [hc], ?_, h0, hdiv⟩
  rw [hc]
  exact hs

/-- What a DIVIDE by a divisor other than 0 leaves (R111, R120): DONE, and the remainder in RES1. -/
theorem exec_divide_completes (t : Bool) {s : State} (hs : s.faulted = false) (hb : s.crc.b ≠ 0) :
    ∃ (d : CrcCore s.W) (q : Nat), exec (.divide t) s = .next { s with crc := d } ∧ d.status.done = true ∧
      IsDivMod s.crc.a.toNat s.crc.b.toNat q d.res1.toNat := by
  obtain ⟨d, he, -, -, h1, -, hd⟩ := divideCompletes.2.2.1 t s hs hb
  have hdiv := divide_isDivMod s.W s.crc.a.toNat t ((toNat_eq_zero_iff _).not.mpr hb)
  rw [← h1] at hdiv
  exact ⟨d, _, he, by rw [hd], hdiv⟩

/-- A DIVIDE of the codeword of a BUILD, with any error XORed in, leaves the remainder of the error: the codeword itself is
a multiple of the polynomial (R145). -/
theorem exec_divide_after_build (t t' : Bool) {s : State} (hs : s.faulted = false) (h : s.crc.buildReady)
    (err : BitVec s.W) :
    ∃ (c d : CrcCore s.W) (q : Nat), exec (.build t) s = .next { s with crc := c } ∧
      exec (.divide t') { s with crc := { c with a := c.res0 ^^^ err } } = .next { s with crc := d } ∧
      d.status.done = true ∧ IsDivMod err.toNat s.crc.b.toNat q d.res1.toNat := by
  obtain ⟨c, q, hbuild, hcb, hcf, hcodeword, hshifted, -⟩ := exec_build_completes t hs h
  obtain ⟨d, q', hdivide, hdone, hreceived, hrem⟩ :=
    exec_divide_completes t' (s := { s with crc := { c with a := c.res0 ^^^ err } }) hcf (hcb ▸ h.1)
  have hmultiple : c.res0.toNat = clmul q s.crc.b.toNat := by rw [hcodeword, hshifted, Nat.xor_xor_cancel_right]
  rw [hcb] at hreceived hrem
  refine ⟨c, d, q ^^^ q', hbuild, hdivide, hdone, ?_, hrem⟩
  rw [clmul_xor_left, Nat.xor_assoc, ← hreceived, ← hmultiple, BitVec.toNat_xor, Nat.xor_xor_cancel_left]

/-- Settles O27: the remainder of the shifted message fits below it. -/
theorem codewordIsMessageThenFcs : Obligations.CodewordIsMessageThenFcs := by
  intro t s hs h
  obtain ⟨c, q, he, -, -, hcodeword, -, hrem⟩ := exec_build_completes t hs h
  obtain ⟨hb, -, hA, -⟩ := h
  rw [bitlen_eq_degree_add_one ((toNat_eq_zero_iff _).not.mpr hb), Nat.lt_succ_iff] at hrem
  obtain ⟨hmessage, hfcs⟩ := shiftLeft_xor_fields (M := s.crc.a.toNat) hrem
  refine ⟨c, he, hcodeword ▸ hmessage, hcodeword ▸ hfcs, ?_, hrem⟩
  rw [hcodeword]
  exact bitlen_xor_le (bitlen_shiftLeft_le _ hA) (hrem.trans (Nat.le_add_left ..))

/-- Settles O28: the codeword without an error leaves the remainder of 0. -/
theorem codewordDividesEvenly : Obligations.CodewordDividesEvenly := by
  intro t t' s hs h
  obtain ⟨c, d, q, hbuild, hdivide, hdone, hrem⟩ := exec_divide_after_build t t' hs h 0#s.W
  rw [BitVec.xor_zero] at hdivide
  have hb : s.crc.b.toNat ≠ 0 := (toNat_eq_zero_iff _).not.mpr h.1
  have hzero : IsDivMod 0 s.crc.b.toNat 0 0 := ⟨by simp, Nat.pos_of_ne_zero (bitlen_eq_zero.not.mpr hb)⟩
  obtain ⟨-, hres1⟩ := quotientAndRemainderAreUnique 0 _ _ _ _ _ hb hrem hzero
  exact ⟨c, d, hbuild, hdivide, hdone, (toNat_eq_zero_iff _).mp hres1⟩

end Sys2Proof.Machine
end

section
/-! PROOFS. A polynomial with two set bits divides no power of two over GF(2), so a single flipped bit is detected (R148;
entry G2 of 93_implementation_defined.md): O29. -/

namespace Sys2Proof.Machine

/-- The lowest set bits of two factors meet in the lowest set bit of their carry-less product: among the shifts of `a` by
positions of set bits of `g` that are at least `l`, only the one by `l` reaches down to bit `k + l`. -/
theorem testBit_clmulBelow_lowest {a g k l : Nat} (ha : a.testBit k = true) (halow : ∀ j < k, a.testBit j = false)
    (hglow : ∀ j < l, g.testBit j = false) (n : Nat) :
    (clmulBelow a g n).testBit (k + l) = (decide (l < n) && g.testBit l) := by
  induction n with
  | zero => simp [clmulBelow]
  | succ n ih =>
    rw [clmulBelow, Nat.testBit_xor, ih]
    rcases Nat.lt_trichotomy n l with hn | rfl | hn
    · simp [hglow n hn, show ¬ l < n by omega, show ¬ l < n + 1 by omega]
    · cases hg : g.testBit n <;> simp [ha]
    · have hterm : (if g.testBit n then a <<< n else 0).testBit (k + l) = false := by
        split
        · rw [Nat.testBit_shiftLeft]
          by_cases hle : n ≤ k + l
          · simp [halow (k + l - n) (by omega)]
          · simp [hle]
        · simp
      simp [hterm, hn, show l < n + 1 by omega]

/-- A set bit of a value is below its bit length. -/
theorem lt_bitlen_of_testBit {x i : Nat} (h : x.testBit i = true) : i < bitlen x :=
  lt_bitlen_iff.mpr (Nat.ge_two_pow_of_testBit h)

/-- A nonzero value has a lowest set bit. -/
theorem exists_lowest_testBit {x : Nat} (hx : x ≠ 0) : ∃ l, x.testBit l = true ∧ ∀ j < l, x.testBit j = false := by
  have hset : ∃ l, x.testBit l = true := ⟨_, testBit_of_bitlen_eq (bitlen_eq_degree_add_one hx)⟩
  exact ⟨Nat.find hset, Nat.find_spec hset, fun j hj => Bool.eq_false_of_not_eq_true (Nat.find_min hset hj)⟩

/-- Only a value with a single set bit divides a power of two over GF(2): the highest and the lowest bit of the product are
those of the factors, added (entry G2). -/
theorem eq_of_testBit_of_clmul_eq_two_pow {a g i x y : Nat} (h : clmul a g = 2 ^ i) (hx : g.testBit x = true)
    (hy : g.testBit y = true) : x = y := by
  have hg : g ≠ 0 := by
    rintro rfl
    simp at hx
  have ha : a ≠ 0 := by
    rintro rfl
    simp [(Nat.two_pow_pos i).ne] at h
  obtain ⟨k, hak, halow⟩ := exists_lowest_testBit ha
  obtain ⟨l, hgl, hglow⟩ := exists_lowest_testBit hg
  have hbottom : i = k + l := by
    have hbit := testBit_clmulBelow_lowest hak halow hglow (bitlen g)
    rw [← clmul, h, hgl, Nat.testBit_two_pow] at hbit
    simpa [lt_bitlen_of_testBit hgl] using hbit
  have htop : i = degree a + degree g := by
    have hlen := bitlen_clmul ha hg
    rw [h, bitlen_eq_size, Nat.size_pow] at hlen
    omega
  have hla := bitlen_eq_degree_add_one ha
  have hlg := bitlen_eq_degree_add_one hg
  have hkle := lt_bitlen_of_testBit hak
  have hbetween : ∀ j, g.testBit j = true → j = degree g := fun j hj => by
    have hjle := lt_bitlen_of_testBit hj
    have hlj : ¬ j < l := fun hlt => by simp [hglow j hlt] at hj
    omega
  rw [hbetween x hx, hbetween y hy]

/-- Settles O29: the flipped bit is an error 2^i, of which a polynomial with two set bits leaves a remainder. -/
theorem singleBitFlipIsDetected : Obligations.SingleBitFlipIsDetected := by
  intro t t' s i x y hs h hxy hx hy hi
  obtain ⟨c, d, q, hbuild, hdivide, hdone, herr, -⟩ := exec_divide_after_build t t' hs h (BitVec.ofNat s.W (2 ^ i))
  have hiW : 2 ^ i < 2 ^ s.W := Nat.pow_lt_pow_right Nat.one_lt_two (hi.trans_le h.2.2.2)
  refine ⟨c, d, hbuild, hdivide, hdone, fun hres1 => hxy ?_⟩
  rw [hres1, BitVec.toNat_ofNat, Nat.mod_eq_of_lt hiW] at herr
  exact eq_of_testBit_of_clmul_eq_two_pow (by simpa using herr.symm) hx hy

end Sys2Proof.Machine
end

section
/-! PROOFS. A cycle of the LFSR engine is an iteration of the divider, so the register is the remainder of the bits consumed
so far (the proof sketch of R167), and leading zeros of the message do not change it (R149, R171): O37. -/

namespace Sys2Proof.Machine

section
variable {W M n G c : Nat} {t : Bool} {v : LfsrState W}

/-- The engine takes the bits of the shifted message from the top down (R162, R166). -/
theorem lfsrInput_eq_testBit (h : c < n + degree G) :
    lfsrInput M n c = (M <<< degree G).testBit (n + degree G - (c + 1)) := by
  rw [lfsrInput, Nat.testBit_shiftLeft]
  split
  · rw [show n + degree G - (c + 1) - degree G = n - 1 - c by omega]
    simp [show degree G ≤ n + degree G - (c + 1) by omega]
  · simp [show ¬ degree G ≤ n + degree G - (c + 1) by omega]

/-- The quotient bit is the bit at the divisor's degree, as nothing longer than the divisor comes up (R114, R116). -/
theorem quotientBit_eq_testBit (hG : G ≠ 0) {x : Nat} (h : bitlen x ≤ bitlen G) :
    quotientBit G x = x.testBit (degree G) := by
  have hlG := bitlen_eq_degree_add_one hG
  rw [quotientBit]
  by_cases heq : bitlen x = bitlen G
  · rw [testBit_of_bitlen_eq (heq.trans hlG)]
    simpa using heq
  · rw [testBit_of_bitlen_le (by omega)]
    simpa using heq

/-- The register with the input bit behind it is no longer than the polynomial (R164). -/
theorem bitlen_shifted_le (hG : G ≠ 0) {reg : Nat} (i : Bool) (h : bitlen reg ≤ degree G) :
    bitlen (2 * reg + i.toNat) ≤ bitlen G := by
  rw [bitlen_eq_degree_add_one hG, ← shiftLeft_or_bit]
  exact bitlen_shiftLeft_or_bit_le i h

/-- The feedback bit is the divider's quotient bit of the register with the input bit behind it; a register of no bits has
no feedback (R163, R170). -/
theorem feedbackBit_eq_quotientBit (hG : G ≠ 0) {reg : Nat} (i : Bool) (h : bitlen reg ≤ degree G) :
    feedbackBit (degree G) reg = (decide (0 < degree G) && quotientBit G (2 * reg + i.toNat)) := by
  rw [quotientBit_eq_testBit hG (bitlen_shifted_le hG i h), feedbackBit]
  cases hm : degree G with
  | zero => rfl
  | succ m =>
    have hhalf : (2 * reg + i.toNat) / 2 = reg := by
      have := i.toNat_lt
      omega
    rw [Nat.testBit_succ, hhalf]
    simp

/-- A cycle leaves in the register what an iteration of the divider leaves of it (R163 to R165). -/
theorem lfsrCycle_reg (hG : G ≠ 0) (h : bitlen v.reg ≤ degree G) :
    (lfsrCycle M n G t c v).reg =
      (2 * v.reg + (lfsrInput M n c).toNat) ^^^
        subtrahend G (quotientBit G (2 * v.reg + (lfsrInput M n c).toNat)) := by
  have hshort := bitlen_after_lt hG (bitlen_shifted_le hG (lfsrInput M n c) h)
  rw [bitlen_eq_degree_add_one hG, Nat.lt_succ_iff, bitlen_le_iff] at hshort
  rw [← Nat.mod_eq_of_lt hshort, Nat.xor_mod_two_pow]
  simp only [lfsrCycle, shiftIn, tapMask, shiftLeft_or_bit, feedbackBit_eq_quotientBit hG (lfsrInput M n c) h]
  cases hm : degree G with
  | zero => simp [Nat.mod_one]
  | succ m => cases quotientBit G (2 * v.reg + (lfsrInput M n c).toNat) <;> simp [subtrahend]

/-- A cycle divides one bit more, and its quotient bit is the divider's (R167). -/
theorem IsDivMod.lfsrCycle {a q : Nat} (hG : G ≠ 0) (h : IsDivMod a G q v.reg) :
    IsDivMod (2 * a + (lfsrInput M n c).toNat) G
      (2 * q + (quotientBit G (2 * v.reg + (lfsrInput M n c).toNat)).toNat)
      (Machine.lfsrCycle M n G t c v).reg := by
  obtain ⟨ha, hr⟩ := h
  have hreg : bitlen v.reg ≤ degree G := Nat.le_sub_one_of_lt hr
  rw [lfsrCycle_reg hG hreg]
  exact ⟨divMod_step ha .., bitlen_after_lt hG (bitlen_shifted_le hG _ hreg)⟩

/-- Before cycle c the register is the remainder of the bits consumed so far, the top c of the shifted message (the
invariant of the proof sketch of R167). -/
theorem lfsrLoop_isDivMod (W : Nat) (t : Bool) (hG : G ≠ 0) (hM : bitlen M ≤ n) (hc : c ≤ n + degree G) :
    ∃ q, IsDivMod ((M <<< degree G) >>> (n + degree G - c)) G q
      (lfsrLoop M n G t c 0 (⟨0, []⟩ : LfsrState W)).reg := by
  induction c with
  | zero =>
    have hnone : (M <<< degree G) >>> (n + degree G) = 0 := by
      rw [Nat.shiftRight_eq_div_pow, Nat.div_eq_of_lt (bitlen_le_iff.mp (bitlen_shiftLeft_le _ hM))]
    refine ⟨0, ?_, ?_⟩
    · rw [Nat.sub_zero, hnone]
      simp
    · rw [lfsrLoop_zero, bitlen_zero]
      exact Nat.pos_of_ne_zero (bitlen_eq_zero.not.mpr hG)
  | succ c ih =>
    obtain ⟨q, hq⟩ := ih (by omega)
    have hstep := hq.lfsrCycle (M := M) (n := n) (c := 0 + c) (t := t) hG
    rw [← lfsrLoop_last, Nat.zero_add, lfsrInput_eq_testBit hc] at hstep
    rw [shiftRight_eq_two_mul_add_testBit, show n + degree G - (c + 1) + 1 = n + degree G - c by omega]
    exact ⟨_, hstep⟩

end

/-- The final register of a run is the remainder of the shifted message (R167). -/
theorem lfsrRun_isDivMod (W : Nat) {M n G : Nat} (t : Bool) (hG : G ≠ 0) (hM : bitlen M ≤ n) :
    ∃ q, IsDivMod (M <<< degree G) G q (lfsrRun W M n G t).reg := by
  simpa [lfsrRun] using lfsrLoop_isDivMod W t hG hM le_rfl

/-- Settles O37: both registers are the remainder of the same shifted message. -/
theorem leadingZerosKeepTheFcs : Obligations.LeadingZerosKeepTheFcs := by
  intro W M n n' G t t' hG hn hn'
  obtain ⟨q, h⟩ := lfsrRun_isDivMod W t hG hn
  obtain ⟨q', h'⟩ := lfsrRun_isDivMod W t' hG hn'
  exact (quotientAndRemainderAreUnique _ _ _ _ _ _ hG h h').2

end Sys2Proof.Machine
end

section
/-! PROOFS. The LFSR engine's state before each cycle (R36, R161), the records it emits (R168, R169), and that tracing
changes no value (R72): O31 and O34. -/

namespace Sys2Proof.Machine

/-- The record of cycle c, which begins with `v` (R168). -/
def LfsrState.record {W : Nat} (M n G c : Nat) (v : LfsrState W) : TraceRecord W :=
  .lfsrCycle c (phaseOf n c) (lfsrInput M n c) (feedbackBit (degree G) v.reg) (degree G)
    (truncTo (degree G) (lfsrCycle M n G true c v).reg)

/-- A cycle emits its record (R168). -/
theorem lfsrCycle_recs {W : Nat} (M n G : Nat) (t : Bool) (c : Nat) (v : LfsrState W) :
    (lfsrCycle M n G t c v).recs = emit t v.recs (v.record M n G c) := rfl

/-- The engine's state before cycle c of a run (R161): register 0, and each cycle after it. -/
def lfsrBefore (W M n G : Nat) (t : Bool) : Nat → LfsrState W
  | 0 => { reg := 0, recs := [] }
  | c + 1 => lfsrCycle M n G t c (lfsrBefore W M n G t c)

/-- The first c cycles of a run lead to the state before cycle c. -/
theorem lfsrLoop_eq_lfsrBefore (W M n G : Nat) (t : Bool) (c : Nat) :
    lfsrLoop M n G t c 0 (⟨0, []⟩ : LfsrState W) = lfsrBefore W M n G t c := by
  induction c with
  | zero => rfl
  | succ c ih => rw [lfsrLoop_last, Nat.zero_add, ih, lfsrBefore]

/-- A run ends with the state after its n + m cycles (R166). -/
theorem lfsrRun_eq_lfsrBefore (W M n G : Nat) (t : Bool) :
    lfsrRun W M n G t = lfsrBefore W M n G t (n + degree G) :=
  lfsrLoop_eq_lfsrBefore ..

/-- The register has m bits before every cycle (R36, R164). -/
theorem lfsrBefore_reg_lt (W M n G : Nat) (t : Bool) (c : Nat) : (lfsrBefore W M n G t c).reg < 2 ^ degree G := by
  rw [← lfsrLoop_eq_lfsrBefore]
  exact lfsrLoop_reg_lt M n G t c 0 _ (Nat.two_pow_pos _)

/-- The register after a cycle: the shift, and the taps if there is feedback (R164, R165). -/
theorem lfsrCycle_reg_eq_xor {W : Nat} (M n G : Nat) (t : Bool) (c : Nat) (v : LfsrState W) :
    (lfsrCycle M n G t c v).reg =
      shiftIn (degree G) v.reg (lfsrInput M n c) ^^^ (if feedbackBit (degree G) v.reg then tapMask G else 0) := by
  rw [lfsrCycle]
  cases feedbackBit (degree G) v.reg with
  | true => rfl
  | false => exact (Nat.xor_zero _).symm

/-- With the trace bit set, the cycles so far have emitted one record each, in their order (R169). -/
theorem lfsrBefore_recs_traced (W M n G c : Nat) :
    (lfsrBefore W M n G true c).recs =
      (List.range c).map fun i => (lfsrBefore W M n G true i).record M n G i := by
  induction c with
  | zero => rfl
  | succ c ih =>
    rw [lfsrBefore, lfsrCycle_recs, emit_true, ih, List.range_succ, List.map_append, List.map_singleton]

theorem lfsrBefore_recs_untraced (W M n G c : Nat) : (lfsrBefore W M n G false c).recs = [] := by
  induction c with
  | zero => rfl
  | succ c ih => rw [lfsrBefore, lfsrCycle_recs, emit_false, ih]

/-- The records of a traced run (R169). -/
theorem lfsrRun_recs_traced (W M n G : Nat) :
    (lfsrRun W M n G true).recs =
      (List.range (n + degree G)).map fun i => (lfsrBefore W M n G true i).record M n G i := by
  rw [lfsrRun_eq_lfsrBefore, lfsrBefore_recs_traced]

/-- Record c of a traced run is that of cycle c (R169). -/
theorem lfsrRun_getElem?_recs_traced {W M n G c : Nat} (h : c < n + degree G) :
    (lfsrRun W M n G true).recs[c]? = some ((lfsrBefore W M n G true c).record M n G c) := by
  rw [lfsrRun_recs_traced, List.getElem?_map, List.getElem?_range h, Option.map_some]

theorem lfsrRun_recs_untraced (W M n G : Nat) : (lfsrRun W M n G false).recs = [] := by
  rw [lfsrRun_eq_lfsrBefore, lfsrBefore_recs_untraced]

theorem length_lfsrRun_recs_traced (W M n G : Nat) : (lfsrRun W M n G true).recs.length = n + degree G := by
  rw [lfsrRun_recs_traced, List.length_map, List.length_range]

/-- Tracing does not change the final register (R72). -/
theorem lfsrRun_reg_eq (W M n G : Nat) (t t' : Bool) : (lfsrRun W M n G t).reg = (lfsrRun W M n G t').reg :=
  lfsrLoop_reg_eq M n G t t' _ 0 _ _ rfl

/-- Settles O31: REG is the register before each cycle of the traced run, and the untraced one has the same. -/
theorem lfsrRunsTheCycles : Obligations.LfsrRunsTheCycles := by
  intro W M n G _
  refine ⟨fun c => (lfsrBefore W M n G true c).reg, rfl, fun c hc => ?_, fun c _ => lfsrBefore_reg_lt W M n G true c,
    length_lfsrRun_recs_traced W M n G, fun t => ⟨?_, ?_⟩⟩
  · exact ⟨_, _, rfl, rfl, lfsrCycle_reg_eq_xor M n G true c _, lfsrRun_getElem?_recs_traced hc⟩
  · rw [lfsrRun_reg_eq W M n G t true, lfsrRun_eq_lfsrBefore]
  · rintro rfl
    exact lfsrRun_recs_untraced W M n G

/-- Settles O34: record c is that of cycle c. -/
theorem lfsrTraceCountAndOrder : Obligations.LfsrTraceCountAndOrder := by
  intro W M n G
  refine ⟨?_, fun c hc => ⟨_, _, _, lfsrRun_getElem?_recs_traced hc⟩, lfsrRun_recs_untraced W M n G,
    lfsrRun_reg_eq W M n G true false⟩
  rw [lfsrRun_recs_traced, List.map_map]
  exact List.map_id _

end Sys2Proof.Machine
end

section
/-! PROOFS. The LFSR's register as a remainder (R167), at the end of a run and in the record of each cycle (R168): O32 and
O35. -/

namespace Sys2Proof.Machine

/-- Settles O32, by the invariant of the run. -/
theorem lfsrRunIsTheRemainder : Obligations.LfsrRunIsTheRemainder :=
  fun W _ _ _ t hG hM => lfsrRun_isDivMod W t hG hM

/-- The final register of a run is the remainder that the divider leaves of the shifted message (R167). -/
theorem lfsrRun_reg_eq_divide_rem (W : Nat) {M n G : Nat} (t t' : Bool) (hG : G ≠ 0) (hM : bitlen M ≤ n) :
    (lfsrRun W M n G t).reg = (divide W (M <<< degree G) G t').rem := by
  obtain ⟨q, h⟩ := lfsrRun_isDivMod W t hG hM
  exact (divide_eq_of_isDivMod W t' hG h).2.symm

/-- The bit appended to a quotient is its bit 0. -/
theorem testBit_zero_two_mul_add_bit (q : Nat) (b : Bool) : (2 * q + b.toNat).testBit 0 = b := by
  cases b <;> simp

/-- Cycle c divides the top c + 1 bits of the shifted message, and its feedback bit is the quotient bit that it forms,
unless the register has no bits (R167, R170). -/
theorem lfsrBefore_succ_isDivMod (W : Nat) {M n G c : Nat} (t : Bool) (hG : G ≠ 0) (hM : bitlen M ≤ n)
    (hc : c < n + degree G) :
    ∃ q, IsDivMod ((M <<< degree G) >>> (n + degree G - 1 - c)) G q (lfsrBefore W M n G t (c + 1)).reg ∧
      feedbackBit (degree G) (lfsrBefore W M n G t c).reg = (decide (0 < degree G) && q.testBit 0) := by
  have hreg := bitlen_le_iff.mpr (lfsrBefore_reg_lt W M n G t c)
  obtain ⟨q, hq⟩ := lfsrLoop_isDivMod W t hG hM hc.le
  rw [lfsrLoop_eq_lfsrBefore] at hq
  have hstep := hq.lfsrCycle (M := M) (n := n) (c := c) (t := t) hG
  rw [lfsrInput_eq_testBit hc, show n + degree G - c = n + degree G - (c + 1) + 1 by omega,
    ← shiftRight_eq_two_mul_add_testBit, show n + degree G - (c + 1) = n + degree G - 1 - c by omega] at hstep
  exact ⟨_, hstep, by rw [testBit_zero_two_mul_add_bit, ← feedbackBit_eq_quotientBit hG _ hreg]⟩

/-- Settles O35: the record of a cycle holds its input bit, its feedback bit and, whole, the register after it. -/
theorem lfsrTraceContent : Obligations.LfsrTraceContent := by
  intro W M n G c hG hM hc
  obtain ⟨q, hdiv, hfeedback⟩ := lfsrBefore_succ_isDivMod W true hG hM hc
  have hinput := lfsrInput_eq_testBit (M := M) hc
  rw [show n + degree G - (c + 1) = n + degree G - 1 - c by omega] at hinput
  have hwhole := truncTo_toNat_of_lt (lfsrBefore_reg_lt W M n G true (c + 1))
  refine ⟨q, truncTo (degree G) (lfsrBefore W M n G true (c + 1)).reg, ?_, hwhole.symm ▸ hdiv⟩
  rw [← hinput, ← hfeedback]
  exact lfsrRun_getElem?_recs_traced hc

end Sys2Proof.Machine
end

section
/-! PROOFS. LFSR completes with the final register, or raises the first failing check (R161, R172, R173): O30. -/

namespace Sys2Proof.Machine

/-- On operands that LFSR does not accept the check names the first fault that applies (R161, R212). -/
theorem lfsrCheck_eq_some {W : Nat} {c : CrcCore W} (h : ¬ c.lfsrReady) :
    lfsrCheck c = some
      (if c.b = 0 then .divisorZero else if c.n.toNat > W then .widthRange else .widthTruncation) := by
  simp only [lfsrCheck, CrcCore.opB_eq, CrcCore.opN_eq, CrcCore.opA_eq, toNat_eq_zero_iff]
  by_cases hb : c.b = 0
  · rw [if_pos hb, if_pos hb]
  · rw [if_neg hb, if_neg hb]
    by_cases hN : c.n.toNat > W
    · rw [if_pos hN, if_pos hN]
    · have hA : bitlen c.a.toNat > c.n.toNat := not_le.mp fun hA => h ⟨hb, not_lt.mp hN, hA⟩
      rw [if_neg hN, if_neg hN, if_pos hA]

/-- Settles O30: the register has m < W bits, so RES1 holds it whole. -/
theorem lfsrCompletes : Obligations.LfsrCompletes := by
  refine ⟨decodeCommand_eq_ok_iff.mpr rfl, decodeCommand_eq_ok_iff.mpr rfl, fun t s hs h => ?_, fun t s hs h => ?_⟩
  · exact completesWith_of_check_none ⟨.lfsr, t⟩ hs (lfsrCheck_eq_none.mpr h) (Nat.zero_le _)
      ((bitlen_lfsrRun_reg_le ..).trans (degree_lt_width h.1).le)
  · exact faultsWith_of_check_some ⟨.lfsr, t⟩ hs (lfsrCheck_eq_some h)

end Sys2Proof.Machine
end

section
/-! PROOFS. LFSR beside BUILD: the same FCS, and the same checks but for Overflow (R167), also for the polynomial 1 (R170):
O33 and O36. -/

namespace Sys2Proof.Machine

/-- A command of an unfaulted core that passes its check answers the state with its results written (R27, R29). -/
theorem exec_of_check_none (k : Command) {s : State} (hs : s.faulted = false) (hcheck : checkOf k.op s.crc = none) :
    exec k.toInstr s = .next { s with crc := s.crc.complete (resultsOf k s.crc) } := by
  rw [exec_command, State.mapCore, commandCore_of_check_none hs hcheck]

/-- A command of an unfaulted core raises a fault exactly when its check fails, with the cause that the check names
(R203, R209). -/
theorem faulted_after_command (k : Command) {s u : State} (hs : s.faulted = false)
    (hu : exec k.toInstr s = .next u) :
    u.faulted = (checkOf k.op s.crc).isSome ∧ ∀ f, checkOf k.op s.crc = some f → u.crc.status.cause = f.code := by
  cases hcheck : checkOf k.op s.crc with
  | none =>
    cases hu.symm.trans (exec_of_check_none k hs hcheck)
    exact ⟨hs, nofun⟩
  | some f =>
    cases hu.symm.trans (faultsWith_of_check_some k hs hcheck)
    exact ⟨rfl, by rintro _ ⟨⟩; rfl⟩

/-- BUILD makes the checks of LFSR, and Overflow after them (R141, R161, R167). -/
theorem buildCheck_eq_lfsrCheck_or {W : Nat} (c : CrcCore W) :
    buildCheck c = (lfsrCheck c).or (if c.opN + degree c.opB > W then some .overflow else none) := by
  unfold buildCheck lfsrCheck
  split_ifs <;> rfl

/-- Operands that BUILD accepts are accepted by LFSR (R167). -/
theorem CrcCore.buildReady.lfsrReady {W : Nat} {c : CrcCore W} (h : c.buildReady) : c.lfsrReady := by
  obtain ⟨hb, hN, hA, -⟩ := h
  exact ⟨hb, hN, hA⟩

/-- Operands that LFSR accepts are accepted by BUILD if the codeword fits (R141, R167). -/
theorem CrcCore.lfsrReady.buildReady {W : Nat} {c : CrcCore W} (h : c.lfsrReady)
    (hfits : c.n.toNat + degree c.b.toNat ≤ W) : c.buildReady := by
  obtain ⟨hb, hN, hA⟩ := h
  exact ⟨hb, hN, hA, hfits⟩

/-- LFSR and BUILD compute the same FCS (R167). -/
theorem lfsrResults_res1_eq_buildResults_res1 {W : Nat} (t t' : Bool) {c : CrcCore W} (h : c.lfsrReady) :
    (lfsrResults t c).res1 = (buildResults t' c).res1 := by
  obtain ⟨hb, -, hA⟩ := h
  exact lfsrRun_reg_eq_divide_rem W t t' ((toNat_eq_zero_iff _).not.mpr hb) hA

/-- Settles O33: the same FCS, and the checks differ in Overflow alone. -/
theorem lfsrFcsEqualsBuildFcs : Obligations.LfsrFcsEqualsBuildFcs := by
  refine ⟨fun t t' s hs h => ?_, fun t t' s u v hs hu hv hne => ?_⟩
  · exact ⟨_, _, exec_of_check_none ⟨.build, t⟩ hs (buildCheck_eq_none.mpr h),
      exec_of_check_none ⟨.lfsr, t'⟩ hs (lfsrCheck_eq_none.mpr h.lfsrReady), rfl, rfl,
      congrArg (truncTo s.W) (lfsrResults_res1_eq_buildResults_res1 t' t h.lfsrReady), rfl, truncTo_toNat_of_lt⟩
  · obtain ⟨hfault, hcause⟩ := faulted_after_command ⟨.build, t⟩ hs hu
    obtain ⟨hfault', -⟩ := faulted_after_command ⟨.lfsr, t'⟩ hs hv
    simp only [checkOf, buildCheck_eq_lfsrCheck_or] at hfault hcause hfault'
    cases hlfsr : lfsrCheck s.crc with
    | some f => simp [hfault, hfault', hlfsr] at hne
    | none =>
      by_cases hover : s.crc.opN + degree s.crc.opB > s.W
      · simp only [hlfsr, hover, Option.none_or, if_true] at hfault hcause
        exact ⟨hfault, hcause _ rfl⟩
      · simp [hfault, hfault', hlfsr, hover] at hne

/-- Without flush cycles and without register bits every record is that of a message cycle, with no feedback and an empty
register (R168, R170). -/
theorem LfsrState.record_of_degree_zero {W : Nat} (M : Nat) {n G c : Nat} (v : LfsrState W) (hG : degree G = 0)
    (hc : c < n) : v.record M n G c = .lfsrCycle c .msg (lfsrInput M n c) false 0 0 := by
  rw [LfsrState.record, hG, phaseOf, if_pos hc]
  congr 1
  exact BitVec.of_length_zero

/-- The records of a run with a polynomial of degree 0 (R170). -/
theorem mem_lfsrRun_recs_of_degree_zero {W M n G : Nat} {t : Bool} {r : TraceRecord W} (hG : degree G = 0)
    (hr : r ∈ (lfsrRun W M n G t).recs) : ∃ (k : Nat) (bit : Bool), r = .lfsrCycle k .msg bit false 0 0 := by
  cases t with
  | false => simp [lfsrRun_recs_untraced] at hr
  | true =>
    rw [lfsrRun_recs_traced, hG, List.mem_map] at hr
    obtain ⟨k, hk, rfl⟩ := hr
    exact ⟨k, _, LfsrState.record_of_degree_zero M _ hG (List.mem_range.mp hk)⟩

/-- A register of no bits is 0 (R170). -/
theorem lfsrResults_res1_of_degree_zero {W : Nat} (t : Bool) {c : CrcCore W} (hm : degree c.b.toNat = 0) :
    (lfsrResults t c).res1 = 0 :=
  bitlen_eq_zero.mp (Nat.le_zero.mp ((bitlen_lfsrRun_reg_le ..).trans_eq hm))

/-- Settles O36: the degree is 0, so the register is empty and BUILD cannot overflow; and BUILD leaves the same FCS. -/
theorem degreeZeroLfsrLeavesAnEmptyFcs : Obligations.DegreeZeroLfsrLeavesAnEmptyFcs := by
  refine ⟨rfl, rfl, fun t t' s hs hb h => ?_⟩
  have hm : degree s.crc.b.toNat = 0 := by rw [hb]; rfl
  have hready : s.crc.buildReady := h.buildReady (by simpa [hm] using h.2.1)
  have hlfsr := lfsrResults_res1_of_degree_zero t hm
  have hbuild : (buildResults t' s.crc).res1 = 0 := (lfsrResults_res1_eq_buildResults_res1 t t' h).symm.trans hlfsr
  refine ⟨_, _, (lfsrResults t s.crc).recs, exec_of_check_none ⟨.lfsr, t⟩ hs (lfsrCheck_eq_none.mpr h), rfl,
    congrArg (truncTo s.W) hlfsr, congrArg (truncTo 32) hm, rfl, ?_, fun r => mem_lfsrRun_recs_of_degree_zero hm,
    exec_of_check_none ⟨.build, t'⟩ hs (buildCheck_eq_none.mpr hready), rfl, congrArg (truncTo s.W) hbuild,
    congrArg (truncTo 32) hm⟩
  rintro rfl
  exact (length_lfsrRun_recs_traced ..).trans (by rw [hm]; rfl)

end Sys2Proof.Machine
end

section
/-! PROOFS. Flipping the T bit of a command word flips the T bit of the command and nothing else (R70, R72). -/

namespace Sys2Proof

/-- The command with its T bit flipped. -/
def Command.flipTrace (k : Command) : Command := { k with trace := !k.trace }

section
variable (w : Word32)

theorem reservedField_xor_traceBit : reservedField (w ^^^ 16#32) = reservedField w := by
  simp [reservedField, BitVec.extractLsb'_xor]

theorem opField_xor_traceBit : opField (w ^^^ 16#32) = opField w := by
  simp [opField, BitVec.extractLsb'_xor]

theorem traceField_xor_traceBit : traceField (w ^^^ 16#32) = !traceField w := by
  simp [traceField]

/-- Bit 4 has no part in whether a word is a command, nor in which operation it names (R72, R73). -/
theorem decodeCommand_xor_traceBit : decodeCommand (w ^^^ 16#32) = (decodeCommand w).map Command.flipTrace := by
  unfold decodeCommand
  rw [reservedField_xor_traceBit, opField_xor_traceBit, traceField_xor_traceBit]
  split
  · rfl
  · cases opOfField (opField w) <;> rfl

end

/-- The port is wide enough for a command word, so CMD takes flipped data as the flipped word (R54, R182). -/
theorem Machine.truncTo_xor_traceBit {W : Nat} (data : BitVec (portWidth W)) :
    truncTo 32 (data ^^^ BitVec.ofNat (portWidth W) 16).toNat = truncTo 32 data.toNat ^^^ 16#32 := by
  have hP : 2 ^ 32 ≤ 2 ^ portWidth W := Nat.pow_le_pow_right (by decide) (le_max_right ..)
  have h16 : 16 % 2 ^ portWidth W = 16 := Nat.mod_eq_of_lt (lt_of_lt_of_le (by decide) hP)
  apply BitVec.eq_of_toNat_eq
  rw [truncTo_toNat, BitVec.toNat_xor, BitVec.toNat_ofNat, h16, Nat.xor_mod_two_pow, BitVec.toNat_xor, truncTo_toNat]
  rfl

end Sys2Proof
end

section
/-! PROOFS. The core without its trace stream: every operation that the requests share leaves of it what it leaves of the
whole core, and a command does so whatever its T bit (R72, R193). -/

namespace Sys2Proof.Machine

/-- The core with all trace records deleted (R193). -/
def CrcCore.eraseTrace {W : Nat} (c : CrcCore W) : CrcCore W := { c with trace := [] }

/-- The results without the records. -/
def Results.eraseRecs {W : Nat} (r : Results W) : Results W := { r with recs := [] }

section
variable {W : Nat} (c : CrcCore W)

@[simp] theorem CrcCore.eraseTrace_status : c.eraseTrace.status = c.status := rfl
@[simp] theorem CrcCore.eraseTrace_eraseTrace : c.eraseTrace.eraseTrace = c.eraseTrace := rfl

theorem CrcCore.eraseTrace_writeA (d : Nat) : (c.writeA d).eraseTrace = c.eraseTrace.writeA d := rfl

theorem CrcCore.eraseTrace_writeB (d : Nat) : (c.writeB d).eraseTrace = c.eraseTrace.writeB d := rfl

theorem CrcCore.eraseTrace_writeN (d : Nat) : (c.writeN d).eraseTrace = c.eraseTrace.writeN d := rfl

theorem CrcCore.eraseTrace_faultEntry (f : FaultCause) : (c.faultEntry f).eraseTrace = c.eraseTrace.faultEntry f := rfl

theorem CrcCore.eraseTrace_complete (r : Results W) :
    (c.complete r).eraseTrace = c.eraseTrace.complete r.eraseRecs := rfl

theorem CrcCore.eraseTrace_gated_faultEntry (f : FaultCause) :
    (c.gated (CrcCore.faultEntry f)).eraseTrace = c.eraseTrace.gated (CrcCore.faultEntry f) := by
  unfold CrcCore.gated
  rw [CrcCore.eraseTrace_status]
  split <;> rfl

/-- An operation that does not read the trace stream keeps two cores equal up to it. -/
theorem CrcCore.eraseTrace_congr {f : CrcCore W → CrcCore W} (hf : ∀ d, (f d).eraseTrace = f d.eraseTrace)
    {c c' : CrcCore W} (h : c.eraseTrace = c'.eraseTrace) : (f c).eraseTrace = (f c').eraseTrace := by
  rw [hf, h, hf]

/-- No register shows the trace stream (R21). -/
@[simp] theorem CrcCore.readReg_eraseTrace (r : Reg) : c.eraseTrace.readReg r = c.readReg r := by cases r <;> rfl

/-- The T bit changes no result (R72). -/
theorem resultsOf_eraseRecs (op : Op) (t t' : Bool) :
    (resultsOf ⟨op, t⟩ c).eraseRecs = (resultsOf ⟨op, t'⟩ c).eraseRecs := by
  cases op with
  | bitlen => rfl
  | divide =>
    obtain ⟨hq, hqw, hrem, hrw⟩ := divide_values_eq W c.opA c.opB t t'
    simp only [resultsOf, divideResults, Results.eraseRecs, hq, hqw, hrem, hrw]
  | build =>
    obtain ⟨-, -, hrem, -⟩ := divide_values_eq W (shiftedMessage c.opA c.opB) c.opB t t'
    simp only [resultsOf, buildResults, Results.eraseRecs, hrem]
  | lfsr => simp only [resultsOf, lfsrResults, Results.eraseRecs, lfsrRun_reg_eq W c.opA c.opN c.opB t t']

/-- Neither the records so far nor the T bit change what a command does to the rest of the core (R72, R193). -/
theorem commandCore_eraseTrace (op : Op) (t t' : Bool) :
    (commandCore ⟨op, t⟩ c).eraseTrace = (commandCore ⟨op, t'⟩ c.eraseTrace).eraseTrace := by
  have hcheck : checkOf op c.eraseTrace = checkOf op c := checkOf_eq_of_operands op rfl rfl rfl
  rcases commandCore_cases ⟨op, t⟩ c with ⟨hf, he⟩ | ⟨hf, f, hk, he⟩ | ⟨hf, hk, he⟩
  all_goals rw [he]
  · rw [commandCore_of_fault (c := c.eraseTrace) _ hf, CrcCore.eraseTrace_eraseTrace]
  · rw [commandCore_of_check_some (k := ⟨op, t'⟩) (c := c.eraseTrace) hf (hcheck.trans hk),
      CrcCore.eraseTrace_faultEntry, CrcCore.eraseTrace_faultEntry, CrcCore.eraseTrace_eraseTrace]
  · rw [commandCore_of_check_none (k := ⟨op, t'⟩) (c := c.eraseTrace) hf (hcheck.trans hk),
      CrcCore.eraseTrace_complete, CrcCore.eraseTrace_complete, CrcCore.eraseTrace_eraseTrace,
      resultsOf_eq_of_operands ⟨op, t'⟩ (c := c.eraseTrace) (d := c) rfl rfl rfl, resultsOf_eraseRecs c op t t']

end

end Sys2Proof.Machine
end

section
/-! PROOFS. Tracing changes no register (R193): a step and the step with the T bit flipped keep two states equal up to
their trace streams. O51. -/

namespace Sys2Proof.Machine

/-- The second state is the first with other trace records and with the T bit of every pending CMD write flipped. -/
inductive TraceFlipped : State → State → Prop where
  | of_eraseTrace {W : Nat} {c c' : CrcCore W} {ret : List (BitVec (portWidth W))} {evs : List (HostEvent (portWidth W))}
      (h : c.eraseTrace = c'.eraseTrace) :
      TraceFlipped ⟨W, c, ret, evs⟩ ⟨W, c', ret, evs.map HostEvent.flipTrace⟩

/-- Two outcomes are next states of which the second is the first with its tracing flipped. -/
def NextTraceFlipped (o o' : Host.Outcome State Fault Refusal) : Prop :=
  ∃ u u', o = .next u ∧ o' = .next u' ∧ TraceFlipped u u'

/-- The simulation starts with the state that R193 compares. -/
theorem traceFlipped_flipTrace (s : State) : TraceFlipped s s.flipTrace := .of_eraseTrace rfl

/-- The register file and STATUS hold no trace record, no returned value and no pending event (R20). -/
theorem State.registers_mk_eq_eraseTrace {W : Nat} (c : CrcCore W) (ret : List (BitVec (portWidth W)))
    (evs : List (HostEvent (portWidth W))) :
    State.registers ⟨W, c, ret, evs⟩ = State.registers ⟨W, c.eraseTrace, [], []⟩ := rfl

theorem TraceFlipped.registers_eq {s s' : State} (h : TraceFlipped s s') : s'.registers = s.registers := by
  cases h with
  | @of_eraseTrace W c c' ret evs h =>
    rw [State.registers_mk_eq_eraseTrace c, State.registers_mk_eq_eraseTrace c', h]

section
variable {W : Nat} {c c' : CrcCore W} (h : c.eraseTrace = c'.eraseTrace) (ret : List (BitVec (portWidth W)))
  (evs : List (HostEvent (portWidth W)))
include h

/-- A RD returns the same value from both cores, and raises the same fault in them (R181). -/
theorem exec_rd_traceFlipped (idx : RegIndex) :
    NextTraceFlipped (exec (.rd idx) ⟨W, c, ret, evs⟩) (exec (.rd idx) ⟨W, c', ret, evs.map HostEvent.flipTrace⟩) := by
  by_cases hbad : regAt idx = some .CMD ∨ regAt idx = none
  · exact ⟨_, _, exec_rd_bad c ret evs hbad, exec_rd_bad c' ret _ hbad,
      .of_eraseTrace (CrcCore.eraseTrace_congr (·.eraseTrace_faultEntry _) h)⟩
  · obtain ⟨hCMD, hnone⟩ := not_or.mp hbad
    obtain ⟨r, hr⟩ := Option.ne_none_iff_exists'.mp hnone
    have hne : r ≠ .CMD := fun he => hCMD (he ▸ hr)
    have hvalue : c.readReg r = c'.readReg r := by rw [← c.readReg_eraseTrace, h, c'.readReg_eraseTrace]
    exact ⟨_, _, exec_rd c ret evs hr hne, exec_rd c' ret _ hr hne, hvalue ▸ .of_eraseTrace h⟩

/-- A WR that issues no command writes the same register of both cores, or raises the same fault in them (R182). -/
theorem exec_wr_traceFlipped {idx : RegIndex} (hidx : idx ≠ cmdIndex) (d : Nat) :
    NextTraceFlipped (exec (.wr idx d) ⟨W, c, ret, evs⟩) (exec (.wr idx d) ⟨W, c', ret, evs.map HostEvent.flipTrace⟩) := by
  have hcases : idx = 0 ∨ idx = 1 ∨ idx = 2 ∨ 4 ≤ idx.toNat := by
    revert idx
    decide
  rcases hcases with rfl | rfl | rfl | hbad
  · exact ⟨_, _, exec_wr_A c ret evs d, exec_wr_A c' ret _ d,
      .of_eraseTrace (CrcCore.eraseTrace_congr (·.eraseTrace_writeA d) h)⟩
  · exact ⟨_, _, exec_wr_B c ret evs d, exec_wr_B c' ret _ d,
      .of_eraseTrace (CrcCore.eraseTrace_congr (·.eraseTrace_writeB d) h)⟩
  · exact ⟨_, _, exec_wr_N c ret evs d, exec_wr_N c' ret _ d,
      .of_eraseTrace (CrcCore.eraseTrace_congr (·.eraseTrace_writeN d) h)⟩
  · exact ⟨_, _, exec_wr_bad c ret evs hbad d, exec_wr_bad c' ret _ hbad d,
      .of_eraseTrace (CrcCore.eraseTrace_congr (·.eraseTrace_faultEntry _) h)⟩

/-- The word with its T bit flipped is the same command but for tracing, or no command either (R72, R206). -/
theorem execIssue_traceFlipped (w : Word32) :
    NextTraceFlipped (execIssue w ⟨W, c, ret, evs⟩)
      (execIssue (w ^^^ 16#32) ⟨W, c', ret, evs.map HostEvent.flipTrace⟩) := by
  have hflip := decodeCommand_xor_traceBit w
  cases hw : decodeCommand w with
  | ok k =>
    rw [hw] at hflip
    rw [execIssue_of_command hw, execIssue_of_command hflip]
    refine ⟨_, _, exec_command_mk k c ret evs, exec_command_mk k.flipTrace c' ret _, .of_eraseTrace ?_⟩
    calc (commandCore k c).eraseTrace
        = (commandCore k.flipTrace c.eraseTrace).eraseTrace := commandCore_eraseTrace c k.op k.trace _
      _ = (commandCore k.flipTrace c'.eraseTrace).eraseTrace := by rw [h]
      _ = (commandCore k.flipTrace c').eraseTrace := (commandCore_eraseTrace c' k.op _ _).symm
  | error e =>
    rw [hw] at hflip
    exact ⟨_, _, execIssue_of_illegal hw _, execIssue_of_illegal hflip _,
      .of_eraseTrace (CrcCore.eraseTrace_congr (·.eraseTrace_gated_faultEntry _) h)⟩

/-- A port request and its flipped form keep the states equal up to the trace, by what the request is. -/
theorem step_request_traceFlipped (hd : PortHeader) (data : BitVec (portWidth W)) :
    NextTraceFlipped (step ⟨W, c, ret, .request hd data :: evs⟩)
      (step ⟨W, c', ret, (HostEvent.request hd data :: evs).map HostEvent.flipTrace⟩) := by
  rw [List.map_cons, HostEvent.flipTrace]
  split
  · next hcmd =>
    subst hcmd
    rw [step_request, step_request, decodeRequest_of_write (by simp), decodeRequest_of_write (by simp),
      indexField_encodeHeader, cmdIndex, exec_wr_CMD, exec_wr_CMD, truncTo_xor_traceBit]
    exact execIssue_traceFlipped h ret evs _
  · next hne =>
    rw [step_request, step_request]
    cases hk : kindField hd with
    | false =>
      rw [decodeRequest_of_read hk]
      exact exec_rd_traceFlipped h ret evs _
    | true =>
      have hidx : indexField hd ≠ cmdIndex := fun he => hne (by rw [← hk, ← he, encodeHeader_fields])
      rw [decodeRequest_of_write hk]
      exact exec_wr_traceFlipped h ret evs hidx _

end

/-- Every step keeps the states equal up to the trace, by the event it takes (R193). -/
theorem step_traceFlipped {s s' : State} (h : TraceFlipped s s') : NextTraceFlipped (step s) (step s') := by
  cases h with
  | @of_eraseTrace W c c' ret evs h =>
    match evs with
    | [] => exact ⟨_, _, step_idle c ret, step_idle c' ret, .of_eraseTrace (evs := []) h⟩
    | .reset :: rest => exact ⟨_, _, step_reset c ret rest, step_reset c' ret _, .of_eraseTrace rfl⟩
    | .request hd data :: rest => exact step_request_traceFlipped h ret rest hd data

/-- So does a run of any length, by induction on it. -/
theorem runFor_traceFlipped {k : Nat} {s s' u : State} (h : TraceFlipped s s') (hu : runFor k s = .next u) :
    ∃ v, runFor k s' = .next v ∧ TraceFlipped u v := by
  induction k generalizing s s' with
  | zero =>
    cases hu
    exact ⟨s', runFor_zero s', h⟩
  | succ k ih =>
    obtain ⟨s₁, s₁', hs, hs', h₁⟩ := step_traceFlipped h
    rw [runFor_succ hs] at hu
    rw [runFor_succ hs']
    exact ih h₁ hu

/-- Settles O51: the two runs end in states equal up to the trace. -/
theorem tracingChangesNoRegister : Obligations.TracingChangesNoRegister := by
  intro k s u hu
  obtain ⟨v, hv, huv⟩ := runFor_traceFlipped (traceFlipped_flipTrace s) hu
  exact ⟨v, hv, huv.registers_eq⟩

end Sys2Proof.Machine
end

section
/-! PROOFS. RD and WR, index by index (R181, R182, R207): O45 and O46. -/

namespace Sys2Proof.Machine

/-- The indices of which a RD is refused (R21, R207). -/
theorem regAt_of_not_readable {idx : RegIndex} (h : idx = 3 ∨ idx.toNat ≥ 9) :
    regAt idx = some .CMD ∨ regAt idx = none := by
  revert idx
  decide

/-- Settles O45: each readable index is a register other than CMD. -/
theorem rdReturnsTheRegister : Obligations.RdReturnsTheRegister := by
  rintro ⟨W, c, ret, evs⟩
  exact ⟨exec_rd c ret evs (r := .A) rfl nofun, exec_rd c ret evs (r := .B) rfl nofun,
    exec_rd c ret evs (r := .N) rfl nofun, exec_rd c ret evs (r := .STATUS) rfl nofun,
    exec_rd c ret evs (r := .RES0) rfl nofun, exec_rd c ret evs (r := .RES1) rfl nofun,
    exec_rd c ret evs (r := .RES0_W) rfl nofun, exec_rd c ret evs (r := .RES1_W) rfl nofun,
    fun _ hidx => exec_rd_bad c ret evs (regAt_of_not_readable hidx)⟩

/-- CMD takes the low 32 data bits and no others (R182). -/
theorem exec_wr_CMD_truncTo (d : Nat) (s : State) : exec (.wr 3 (truncTo 32 d).toNat) s = exec (.wr 3 d) s := by
  rw [exec_wr_CMD, exec_wr_CMD, truncTo, BitVec.ofNat_toNat, BitVec.setWidth_eq]

/-- Settles O46: a write of A, B or N by its definition, and a CMD write by what its word decodes to. -/
theorem wrWritesTheRegisterOrIssues : Obligations.WrWritesTheRegisterOrIssues := by
  intro s d
  refine ⟨exec_wr_A s.crc s.returned s.inbox d, exec_wr_B s.crc s.returned s.inbox d,
    exec_wr_N s.crc s.returned s.inbox d, fun k hk => execIssue_of_command hk s, fun e he => ⟨fun hf => ?_, fun hf => ?_⟩,
    fun idx hidx => exec_wr_bad s.crc s.returned s.inbox hidx d⟩
  · rw [exec_wr_CMD, execIssue_of_illegal he, State.mapCore, CrcCore.gated_of_fault _ hf]
  · rw [FaultsWith, ← exec_wr_CMD_truncTo]
    exact faultsWith_illegalCommand he hf

end Sys2Proof.Machine
end

section
/-! PROOFS. The trace stream is append-only, and only a command with T = 1 appends to it (R190): O50. -/

namespace Sys2Proof.Machine

section
variable {W : Nat} (c : CrcCore W)

/-- An untraced command has no record (R72). -/
theorem resultsOf_recs_untraced (op : Op) : (resultsOf ⟨op, false⟩ c).recs = [] := by
  cases op with
  | bitlen => rfl
  | divide => exact divide_recs_untraced ..
  | build => exact divide_recs_untraced ..
  | lfsr => exact lfsrRun_recs_untraced ..

/-- A command leaves the records so far in front, and appends some only if it is traced (R190). -/
theorem commandCore_trace (k : Command) :
    ∃ recs, (commandCore k c).trace = c.trace ++ recs ∧ (recs ≠ [] → k.trace = true) := by
  rcases commandCore_cases k c with ⟨-, he⟩ | ⟨-, f, -, he⟩ | ⟨-, -, he⟩
  all_goals rw [he]
  · exact ⟨[], (List.append_nil _).symm, fun hne => absurd rfl hne⟩
  · exact ⟨[], (List.append_nil _).symm, fun hne => absurd rfl hne⟩
  · refine ⟨(resultsOf k c).recs, rfl, fun hne => ?_⟩
    obtain ⟨op, t⟩ := k
    cases t with
    | false => exact absurd (resultsOf_recs_untraced c op) hne
    | true => rfl

theorem CrcCore.gated_faultEntry_trace (f : FaultCause) : (c.gated (CrcCore.faultEntry f)).trace = c.trace := by
  unfold CrcCore.gated
  split <;> rfl

end

/-- A word written to CMD leaves the records so far in front, and appends some only if it is a command with T = 1 (R190,
R206). -/
theorem execIssue_trace (w : Word32) (s : State) :
    ∃ c recs, execIssue w s = .next { s with crc := c } ∧ c.trace = s.crc.trace ++ recs ∧
      (recs ≠ [] → ∃ op, decodeCommand w = .ok ⟨op, true⟩) := by
  cases hw : decodeCommand w with
  | ok k =>
    obtain ⟨recs, htrace, htraced⟩ := commandCore_trace s.crc k
    refine ⟨_, recs, (execIssue_of_command hw s).trans (exec_command k s), htrace, fun hne => ⟨k.op, ?_⟩⟩
    rw [← htraced hne]
  | error e =>
    refine ⟨_, [], execIssue_of_illegal hw s, ?_, fun hne => absurd rfl hne⟩
    rw [CrcCore.gated_faultEntry_trace, List.append_nil]

/-- Settles O50: a CMD write by the word it issues, any other request by its frame, and a reset by the reset value. -/
theorem traceIsAppendOnly : Obligations.TraceIsAppendOnly := by
  refine ⟨fun s hd data rest hin => ?_, fun s rest hin => ?_⟩
  · by_cases hcmd : hd = 0b10011#5
    · subst hcmd
      obtain ⟨c, recs, he, htrace, htraced⟩ := execIssue_trace (truncTo 32 data.toNat) (s.withInbox rest)
      exact ⟨c, s.returned, recs, (step_of_inbox s hin).trans he, htrace, fun hne => ⟨rfl, htraced hne⟩⟩
    · obtain ⟨c, ret, he, heff, -⟩ := step_request_effect s hd data rest hin
      obtain ⟨-, -, -, -, htrace⟩ := heff.results_frame hcmd
      exact ⟨c, ret, [], he, htrace.trans (List.append_nil _).symm, fun hne => absurd rfl hne⟩
  · exact ⟨(s.withInbox rest).takeReset, by simp [step, hin], rfl⟩

end Sys2Proof.Machine
end

section
/-! PROOFS. FAULT is sticky: until a reset every event keeps FAULT, CAUSE, the results and the trace stream (R24, R28, R209,
R210): O44 and O40. -/

namespace Sys2Proof.Machine

section
variable {W : Nat} {c c' c'' : CrcCore W} {hd : PortHeader}

/-- What no event but a reset changes of a faulted core: FAULT, CAUSE, the results and the trace stream, and the whole of
STATUS if it is legal (R210). -/
structure CrcCore.KeepsFault (c c' : CrcCore W) : Prop where
  fault  : c'.status.fault = c.status.fault
  cause  : c'.status.cause = c.status.cause
  status : c.status.legal → c'.status = c.status
  res0   : c'.res0 = c.res0
  res1   : c'.res1 = c.res1
  res0W  : c'.res0W = c.res0W
  res1W  : c'.res1W = c.res1W
  trace  : c'.trace = c.trace

theorem CrcCore.KeepsFault.refl (c : CrcCore W) : c.KeepsFault c := ⟨rfl, rfl, fun _ => rfl, rfl, rfl, rfl, rfl, rfl⟩

theorem CrcCore.KeepsFault.trans (h : c.KeepsFault c') (h' : c'.KeepsFault c'') : c.KeepsFault c'' where
  fault  := h'.fault.trans h.fault
  cause  := h'.cause.trans h.cause
  status hl := (h'.status (h.status hl ▸ hl)).trans (h.status hl)
  res0   := h'.res0.trans h.res0
  res1   := h'.res1.trans h.res1
  res0W  := h'.res0W.trans h.res0W
  res1W  := h'.res1W.trans h.res1W
  trace  := h'.trace.trans h.trace

/-- A fault raised while FAULT is 1 keeps the first cause (R209). -/
theorem Status.raise_of_fault {st : Status} (f : FaultCause) (hf : st.fault = true) :
    st.raise f = ⟨false, true, st.cause⟩ := by
  simp [Status.raise, hf]

/-- In a legal STATUS with FAULT = 1 there is no DONE to clear (R26). -/
theorem Status.raise_of_legal {st : Status} (f : FaultCause) (hf : st.fault = true) (hl : st.legal) :
    st.raise f = st := by
  obtain ⟨-, -, hdone⟩ := hl.2 hf
  rw [Status.raise_of_fault f hf, ← hdone, ← hf]

/-- Fault entry of a faulted core changes nothing but DONE (R209). -/
theorem CrcCore.keepsFault_faultEntry (f : FaultCause) (hf : c.status.fault = true) : c.KeepsFault (c.faultEntry f) where
  fault  := hf.symm
  cause  := (Status.raise_cause f c.status).trans (if_pos hf)
  status := Status.raise_of_legal f hf
  res0   := rfl
  res1   := rfl
  res0W  := rfl
  res1W  := rfl
  trace  := rfl

/-- A request to a faulted core keeps its fault: no CMD write passes the FAULT gate (R28, R210). -/
theorem RequestEffect.keepsFault (h : RequestEffect c hd c') (hf : c.status.fault = true) : c.KeepsFault c' := by
  cases h with
  | read | ignored => exact .refl c
  | badAccess => exact CrcCore.keepsFault_faultEntry .badAccess hf
  | writeA | writeB | writeN => exact ⟨rfl, rfl, fun _ => rfl, rfl, rfl, rfl, rfl, rfl⟩
  | faulted hf' | completed hf' => exact absurd (hf.symm.trans hf') nofun

/-- A step of a faulted machine that takes no reset keeps the fault, and the width (R210). -/
theorem step_keepsFault (ret : List (BitVec (portWidth W))) {evs : List (HostEvent (portWidth W))}
    (hf : c.status.fault = true) (hno : evs.head? ≠ some .reset) :
    ∃ c' ret', step ⟨W, c, ret, evs⟩ = .next ⟨W, c', ret', evs.tail⟩ ∧ c.KeepsFault c' := by
  match evs with
  | [] => exact ⟨c, ret, step_idle c ret, .refl c⟩
  | .reset :: _ => exact absurd rfl hno
  | .request hd data :: rest =>
    obtain ⟨c', ret', he, heff, -⟩ := exec_request_effect hd data c ret rest
    exact ⟨c', ret', he, heff.keepsFault hf⟩

/-- So does a run that takes no reset, by induction on it (R210). -/
theorem runFor_keepsFault {k : Nat} {ret : List (BitVec (portWidth W))} {evs : List (HostEvent (portWidth W))} {u : State}
    (hf : c.status.fault = true) (hno : .reset ∉ evs.take k) (hu : runFor k ⟨W, c, ret, evs⟩ = .next u) :
    ∃ c' ret' evs', u = ⟨W, c', ret', evs'⟩ ∧ c.KeepsFault c' := by
  induction k generalizing c ret evs with
  | zero =>
    cases hu
    exact ⟨c, ret, evs, rfl, .refl c⟩
  | succ k ih =>
    obtain ⟨hhead, htail⟩ : evs.head? ≠ some .reset ∧ .reset ∉ evs.tail.take k := by
      cases evs with
      | nil => simp
      | cons e rest => simpa [eq_comm] using hno
    obtain ⟨c₁, ret₁, he, h₁⟩ := step_keepsFault ret hf hhead
    rw [runFor_succ he] at hu
    obtain ⟨c', ret', evs', rfl, h'⟩ := ih (h₁.fault.trans hf) htail hu
    exact ⟨c', ret', evs', rfl, h₁.trans h'⟩

end

/-- Settles O44: FAULT, CAUSE, the results and the trace stream are among what the run keeps. -/
theorem faultIsStickyUntilReset : Obligations.FaultIsStickyUntilReset := by
  rintro k ⟨W, c, ret, evs⟩ u hf hno hu
  obtain ⟨c', ret', evs', rfl, h⟩ := runFor_keepsFault hf (fun hmem => hno _ hmem rfl) hu
  refine ⟨h.fault.trans hf, h.cause, ?_, congrArg List.length h.trace, h.status⟩
  simp [State.registers, h.res0, h.res1, h.res0W, h.res1W]

/-- Settles O40: STATUS is the only field that fault entry writes. -/
theorem faultEntryKeepsTheFirstCause : Obligations.FaultEntryKeepsTheFirstCause := by
  refine ⟨fun W c f => ⟨CrcCore.faultEntry_of_not_fault f, fun hf => ?_⟩, rfl, rfl, rfl, rfl, rfl, rfl⟩
  rw [CrcCore.faultEntry, Status.raise_of_fault f hf]

end Sys2Proof.Machine
end

section
/-! PROOFS. A request reports the first fault that applies, and changes only STATUS with it (R203, R207, R212, R214): O42
and O43. -/

namespace Sys2Proof.Machine

section
variable {W : Nat} {c c' : CrcCore W}

/-- DIVIDE, BUILD and LFSR check the polynomial first (R212). -/
theorem checkOf_divisorZero {op : Op} (hop : op ≠ .bitlen) (hb : c.b = 0) : checkOf op c = some .divisorZero := by
  cases op with
  | bitlen => exact absurd rfl hop
  | divide => simp [checkOf, divideCheck, hb]
  | build => simp [checkOf, buildCheck, hb]
  | lfsr => simp [checkOf, lfsrCheck, hb]

/-- BUILD and LFSR report a failing check of LFSR alike (R141, R161, R212). -/
theorem checkOf_of_lfsrCheck {op : Op} {f : FaultCause} (hop : op = .build ∨ op = .lfsr) (h : lfsrCheck c = some f) :
    checkOf op c = some f := by
  rcases hop with rfl | rfl
  · rw [checkOf, buildCheck_eq_lfsrCheck_or, h, Option.some_or]
  · exact h

/-- BUILD and LFSR check N against W second (R212). -/
theorem checkOf_widthRange {op : Op} (hop : op = .build ∨ op = .lfsr) (hb : c.b ≠ 0) (hN : c.n.toNat > W) :
    checkOf op c = some .widthRange :=
  checkOf_of_lfsrCheck hop (by rw [lfsrCheck_eq_some fun h => hN.not_ge h.2.1, if_neg hb, if_pos hN])

/-- BUILD and LFSR check the length of A third (R212). -/
theorem checkOf_widthTruncation {op : Op} (hop : op = .build ∨ op = .lfsr) (hb : c.b ≠ 0) (hN : c.n.toNat ≤ W)
    (hA : bitlen c.a.toNat > c.n.toNat) : checkOf op c = some .widthTruncation :=
  checkOf_of_lfsrCheck hop (by rw [lfsrCheck_eq_some fun h => hA.not_ge h.2.2, if_neg hb, if_neg hN.not_gt])

/-- BUILD checks the length of the codeword last (R211, R212). -/
theorem buildCheck_overflow (hb : c.b ≠ 0) (hN : c.n.toNat ≤ W) (hA : bitlen c.a.toNat ≤ c.n.toNat)
    (hover : c.n.toNat + degree c.b.toNat > W) : buildCheck c = some .overflow := by
  rw [buildCheck_eq_some fun h => hover.not_ge h.2.2.2, if_neg hb, if_neg hN.not_gt, if_neg hA.not_gt]

/-- A RD returns a value and changes nothing else, or returns 0 and raises BadAccess (R181, R207). -/
theorem exec_rd_cases (idx : RegIndex) (s : State) :
    (∃ v, exec (.rd idx) s = .next (s.returning v)) ∨ exec (.rd idx) s = .next (s.badAccess.returning 0) := by
  cases hr : regAt idx with
  | none => exact .inr (exec_rd_bad s.crc s.returned s.inbox (.inr hr))
  | some r =>
    by_cases hC : r = .CMD
    · exact .inr (exec_rd_bad s.crc s.returned s.inbox (.inl (hC ▸ hr)))
    · exact .inl ⟨_, exec_rd s.crc s.returned s.inbox hr hC⟩

/-- A WR of another index than CMD keeps STATUS, or raises BadAccess and writes nothing (R182, R207). -/
theorem exec_wr_cases {idx : RegIndex} (hidx : idx ≠ 3) (data : Nat) (s : State) :
    (∃ u, exec (.wr idx data) s = .next u ∧ u.crc.status = s.crc.status) ∨
      exec (.wr idx data) s = .next s.badAccess := by
  have hcases : idx = 0 ∨ idx = 1 ∨ idx = 2 ∨ 4 ≤ idx.toNat := by
    revert idx
    decide
  rcases hcases with rfl | rfl | rfl | hbad
  · exact .inl ⟨_, exec_wr_A s.crc s.returned s.inbox data, rfl⟩
  · exact .inl ⟨_, exec_wr_B s.crc s.returned s.inbox data, rfl⟩
  · exact .inl ⟨_, exec_wr_N s.crc s.returned s.inbox data, rfl⟩
  · exact .inr (exec_wr_bad s.crc s.returned s.inbox hbad data)

/-- A CMD write of a command whose check fails answers the fault that the check names (R183, R203). -/
theorem faultsWith_wr_CMD {data : Nat} {k : Command} {s : State} {f : FaultCause}
    (hk : decodeCommand (BitVec.ofNat 32 data) = .ok k) (hs : s.faulted = false) (hcheck : checkOf k.op s.crc = some f) :
    FaultsWith (.wr 3 data) s f :=
  (execIssue_of_command hk s).trans (faultsWith_of_check_some k hs hcheck)

/-- A request that raises a fault has entered it, and done nothing else to the core (R203, R214). -/
theorem RequestEffect.eq_faultEntry {hd : PortHeader} (h : RequestEffect c hd c') (hf : c.status.fault = false)
    (hf' : c'.status.fault = true) : ∃ f, c' = c.faultEntry f := by
  cases h with
  | badAccess => exact ⟨_, rfl⟩
  | faulted _ f => exact ⟨f, rfl⟩
  | read | writeA | writeB | writeN | ignored | completed => exact absurd (hf.symm.trans hf') nofun

end

/-- Settles O42: the checks in their order, behind the FAULT gate and the decoder, and the one fault of the other
requests. -/
theorem firstFaultInPriorityOrder : Obligations.FirstFaultInPriorityOrder := by
  intro s data
  have hbad : s.faulted = false → (s.crc.faultEntry .badAccess).status.cause = FaultCause.badAccess.code := fun hs =>
    congrArg (·.status.cause) (CrcCore.faultEntry_of_not_fault .badAccess hs)
  obtain ⟨-, -, -, -, hillegal, -⟩ := wrWritesTheRegisterOrIssues s data
  refine ⟨fun hf => (faultedCoreIgnoresCommands s hf).2 data, fun hs =>
    ⟨fun e he => (hillegal e he).2 hs, fun k hk => ?_, fun idx hidx => ?_, fun idx => ?_⟩⟩
  · exact ⟨fun hop hb => faultsWith_wr_CMD hk hs (checkOf_divisorZero hop hb), fun hop hb =>
      ⟨fun hN => faultsWith_wr_CMD hk hs (checkOf_widthRange hop hb hN),
        fun hN hA => faultsWith_wr_CMD hk hs (checkOf_widthTruncation hop hb hN hA),
        fun hN hA hbuild hover => faultsWith_wr_CMD hk hs (hbuild ▸ buildCheck_overflow hb hN hA hover)⟩⟩
  · rcases exec_wr_cases hidx data s with ⟨u, he, hst⟩ | he
    · exact ⟨u, he, .inl ((congrArg Status.fault hst).trans hs)⟩
    · exact ⟨_, he, .inr (hbad hs)⟩
  · rcases exec_rd_cases idx s with ⟨v, he⟩ | he
    · exact ⟨_, he, .inl hs⟩
    · exact ⟨_, he, .inr (hbad hs)⟩

/-- Settles O43: a RD that raises a fault is a refused one, and a WR returns no value. -/
theorem faultsArePrecise : Obligations.FaultsArePrecise := by
  intro s u hd data rest hin hs hu hfu
  cases hk : kindField hd with
  | false =>
    rw [step_of_inbox s hin, decodeRequest_of_read hk] at hu
    rcases exec_rd_cases (indexField hd) (s.withInbox rest) with ⟨v, he⟩ | he
    · cases hu.symm.trans he
      exact absurd (hs.symm.trans hfu) nofun
    · cases hu.symm.trans he
      exact ⟨.badAccess, .inr (by rw [← CrcCore.faultEntry_of_not_fault .badAccess hs])⟩
  | true =>
    obtain ⟨c', ret', he, heff, hret, -⟩ := step_request_effect s hd data rest hin
    cases hu.symm.trans he
    obtain ⟨f, rfl⟩ := heff.eq_faultEntry hs hfu
    exact ⟨f, .inl (by rw [hret hk, CrcCore.faultEntry_of_not_fault f hs])⟩

end Sys2Proof.Machine
end

section
/-! PROOFS. Reset clears every register, FAULT and CAUSE among them, and no other event clears FAULT (R20, R210, R230):
O10. -/

namespace Sys2Proof.Machine

/-- The step that takes a reset, from the pending events (R230). -/
theorem step_of_inbox_reset (s : State) {rest : List (HostEvent (portWidth s.W))} (hin : s.inbox = .reset :: rest) :
    step s = .next (s.withInbox rest).takeReset := by
  simp only [step, hin]

/-- Settles O10: a reset leaves the registers and the trace stream of the reset core (R38), and FAULT and CAUSE are among
what any other step keeps. -/
theorem onlyResetClearsTheFault : Obligations.OnlyResetClearsTheFault := by
  constructor
  · intro s rest hin
    obtain ⟨hregisters, -, htrace⟩ := resetLeavesEverythingZero.1 s.W
    exact ⟨_, step_of_inbox_reset s hin, hregisters, htrace⟩
  · rintro ⟨W, c, ret, evs⟩ u hf hno hu
    have hhead : evs.head? ≠ some .reset := fun h => (List.head?_eq_some_iff.mp h).elim hno
    obtain ⟨c', ret', he, hkeeps⟩ := step_keepsFault ret hf hhead
    cases hu.symm.trans he
    exact ⟨hkeeps.fault.trans hf, hkeeps.cause⟩

end Sys2Proof.Machine
end
